-- ==== Sys2Proof/Word.lean ====
section
/-! DEFINITION. The word types of the block (spec/00_scope.md R7: every quantity is an unsigned bit vector). -/

namespace Sys2Proof

/-- A byte: 8 bits, 0 to 255 (R7). -/
abbrev Byte := BitVec 8

/-- A 16-bit CRC value (R5 `CRC_WIDTH`). -/
abbrev Crc := BitVec 16

/-- A host command word: 24 bits (R53). -/
abbrev HostWord := BitVec 24

end Sys2Proof
end

