-- ==== Sys2Proof/Config.lean ====
section
/-! DEFINITION. The constants of spec/00_scope.md R5 and the parameters of R6 to which the spec gives a value.
`READ_TIMEOUT` (R6) is open and is no number of the model: the timer is an agent of the schedule (R40). -/

namespace Sys2Proof.Config

/-- `CRC_INIT`, "register initialized to 0" (R5). -/
abbrev crcInit : Crc := 0x0000#16

/-- `CRC_POLY` (R5). -/
abbrev crcPoly : Crc := 0x8005#16

/-- `ENV_START`, the first byte of every request (R5, R46). -/
abbrev envStart : Byte := 0xFD#8

/-- `CODE_COMM`, 99, the local failure code (R5, R52). -/
abbrev codeComm : Byte := 99#8

/-- `TXBUF_CAP`: the frame buffer holds 255 bytes (R5, R13). -/
abbrev txbufCap : Nat := 255

/-- `EXEC_MIN_FRAME`: the five fixed bytes of a frame (R6, D8). -/
abbrev execMinFrame : Nat := 5

/-- `EXEC_MAX_FRAME`: "frame length + 1 ≤ 255" (R5, R82). -/
abbrev execMaxFrame : Nat := 254

/-- `RSP_OVERHEAD`: the length byte counts itself and two CRC bytes beside the data (R5, R49). -/
abbrev rspOverhead : Nat := 3

/-- `RXBUF_CAP`: the largest body is 254 bytes (R6, D18). -/
abbrev rxbufCap : Nat := 254

end Sys2Proof.Config
end

