-- ==== Sys2Proof/Syntax.lean ====
section
/-! DEFINITION. The instructions: one constructor per row of spec/opcode_table.json. The twelve host operations
are spec/30_encoding.md R54; `req` is the request's start byte (R46) and stands for the transmit phase it opens
(R83); the `st…` rows are the status byte of a response (R48, R51) and stand for its classification (R93). -/

namespace Sys2Proof

/-- One constructor per row of the opcode table, in the table's order. -/
inductive Instr where
  /-- `NOP` (R110). -/
  | nop
  /-- `CRC.CLR` (R69). -/
  | crcClr
  /-- `CRC.UPD b` (R70). -/
  | crcUpd (b : Byte)
  /-- `CRC.EMIT` (R71). -/
  | crcEmit
  /-- `CRC.VFY w` (R72). -/
  | crcVfy (w : Crc)
  /-- `TXB.CLR` (R80). -/
  | txbClr
  /-- `TXB.PUSH b` (R81). -/
  | txbPush (b : Byte)
  /-- `XFER.EXEC` (R90): admission and start; the later phases are steps of their own. -/
  | xferExec
  /-- `RXB.RD i` (R102). -/
  | rxbRd (i : Byte)
  /-- `XFER.FLUSH` (R103). -/
  | xferFlush
  /-- `REG.RD r` (R111). -/
  | regRd (r : Byte)
  /-- `SYS.RESET` (R112). -/
  | sysReset
  /-- `REQ` (R46, R83): the request envelope goes out. -/
  | req
  /-- `ST.OK` (R93): status byte 0. -/
  | stOk
  /-- `ST.RECV` (R93): status byte 1. -/
  | stRecv
  /-- `ST.PARAM` (R93): status byte 2. -/
  | stParam
  /-- `ST.EXEC` (R93): status byte 3. -/
  | stExec
  /-- `ST.UNKNOWN.04_07` (R93): status byte `000001ss`. -/
  | stUnknown04 (ss : BitVec 2)
  /-- `ST.UNKNOWN.08_0F` (R93): status byte `00001sss`. -/
  | stUnknown08 (ss : BitVec 3)
  /-- `ST.UNKNOWN.10_1F` (R93): status byte `0001ssss`. -/
  | stUnknown10 (ss : BitVec 4)
  /-- `ST.UNKNOWN.20_3F` (R93): status byte `001sssss`. -/
  | stUnknown20 (ss : BitVec 5)
  /-- `ST.UNKNOWN.40_7F` (R93): status byte `01ssssss`. -/
  | stUnknown40 (ss : BitVec 6)
  /-- `ST.UNKNOWN.80_FF` (R93): status byte `1sssssss`. -/
  | stUnknown80 (ss : BitVec 7)
  deriving DecidableEq, Repr

end Sys2Proof
end

