-- ==== Sys2Proof/WellFormed.lean ====
section
/-! DEFINITION. Well-formedness: what spec/30_encoding.md R56 calls a legal encoding, and the length bounds of the
channel formats. Operand widths are carried by the types of `Instr`, so the one check left for an instruction is
the register number of `REG.RD`. An ill-formed `REG.RD` still decodes and is still answered (`BADREG`, R111). -/

namespace Sys2Proof

/-- A register number of spec/10_state.md R21: `0x00` to `0x0B`. -/
def regNumberUsed (r : Byte) : Bool := decide (r.toNat ≤ 0x0B)

/-- The instruction is a legal encoding by R56: a `REG.RD` names a register that is not reserved. -/
def Instr.wellFormed : Instr → Bool
  | .regRd r => regNumberUsed r
  | .nop | .crcClr | .crcUpd _ | .crcEmit | .crcVfy _ | .txbClr | .txbPush _ | .xferExec | .rxbRd _ | .xferFlush
  | .sysReset | .req | .stOk | .stRecv | .stParam | .stExec | .stUnknown04 _ | .stUnknown08 _ | .stUnknown10 _
  | .stUnknown20 _ | .stUnknown40 _ | .stUnknown80 _ => true

/-- A frame length the transactor sends: `5 ≤ N ≤ 254` (R46, R82). -/
def frameLengthOk (n : Nat) : Bool := decide (Config.execMinFrame ≤ n) && decide (n ≤ Config.execMaxFrame)

/-- A length byte a well-formed response carries: `3 ≤ L` (R48, R95). -/
def lengthByteOk (l : Byte) : Bool := decide (Config.rspOverhead ≤ l.toNat)

end Sys2Proof
end

