-- ==== Sys2Proof/Decode.lean ====
section
/-! DEFINITION. Decoding and encoding (spec/30_encoding.md): the host command word (R53, R54, R56), the status byte
of a response (R51), the request (R46) and the length rules of the two channel formats (R57). -/

namespace Sys2Proof

/-! ## Fields -/

/-- The low byte of a 16-bit value, `v[7:0]` (R7). -/
def lowByte (v : Crc) : Byte := v.extractLsb' 0 8

/-- The high byte of a 16-bit value, `v[15:8]` (R7). -/
def highByte (v : Crc) : Byte := v.extractLsb' 8 8

/-- The 16-bit value of two bytes given low byte first: `lo | (hi << 8)` (R33, R50, R68). -/
def joinBytes (lo hi : Byte) : Crc := lo.setWidth 16 ||| (hi.setWidth 16 <<< 8)

/-- Field `op` of a host command word, bits 23:16 (R53). -/
def opField (w : HostWord) : Byte := w.extractLsb' 16 8

/-- Field `arg` of a host command word, bits 15:0 (R53). -/
def argField (w : HostWord) : Crc := w.extractLsb' 0 16

/-- The host command word with the given fields (R53). -/
def hostWord (op : Byte) (arg : Crc) : HostWord := arg.setWidth 24 ||| (op.setWidth 24 <<< 16)

/-! ## Words of the four formats -/

/-- An encoded instruction with its format (R45): which format a byte belongs to is decided by where it stands
(host port, request, response), not by the byte. -/
inductive Encoded where
  /-- A word on the host port. -/
  | hc (w : HostWord)
  /-- The first byte of a request. -/
  | req (b : Byte)
  /-- The first byte of a response. -/
  | rsp (b : Byte)
  deriving DecidableEq, Repr

/-- Why a word is no instruction. -/
inductive DecodeRefusal where
  /-- `BADOP`: the word's `op` is not one of the twelve of R54. -/
  | badOp
  /-- `BADARG`: `op` is used and an argument bit the operation does not use is 1 (R56). -/
  | badArg
  /-- The first byte of a request is not `0xFD` (R46). -/
  | badStart
  deriving DecidableEq, Repr

/-- An operation without argument: `arg` must be 0 (R53). -/
def noArg (arg : Crc) (i : Instr) : Except DecodeRefusal Instr :=
  if arg = 0#16 then .ok i else .error .badArg

/-- An operation with a byte argument: `arg[15:8]` must be 0 (R53). -/
def byteArg (arg : Crc) (mk : Byte → Instr) : Except DecodeRefusal Instr :=
  if highByte arg = 0#8 then .ok (mk (lowByte arg)) else .error .badArg

/-- The operation map of R54; `BADOP` is decided before `BADARG` (R113). -/
def decodeHost (w : HostWord) : Except DecodeRefusal Instr :=
  match (opField w).toNat with
  | 0x00 => noArg (argField w) .nop
  | 0x01 => noArg (argField w) .crcClr
  | 0x02 => byteArg (argField w) .crcUpd
  | 0x03 => noArg (argField w) .crcEmit
  | 0x04 => .ok (.crcVfy (argField w))
  | 0x10 => noArg (argField w) .txbClr
  | 0x11 => byteArg (argField w) .txbPush
  | 0x20 => noArg (argField w) .xferExec
  | 0x21 => byteArg (argField w) .rxbRd
  | 0x22 => noArg (argField w) .xferFlush
  | 0x30 => byteArg (argField w) .regRd
  | 0x3F => noArg (argField w) .sysReset
  | _ => .error .badOp

/-- The status byte of a response: every byte is one of the ten rows (R51). -/
def decodeStatus (b : Byte) : Instr :=
  if b.toNat = 0 then .stOk
  else if b.toNat = 1 then .stRecv
  else if b.toNat = 2 then .stParam
  else if b.toNat = 3 then .stExec
  else if b.toNat < 0x08 then .stUnknown04 (b.extractLsb' 0 2)
  else if b.toNat < 0x10 then .stUnknown08 (b.extractLsb' 0 3)
  else if b.toNat < 0x20 then .stUnknown10 (b.extractLsb' 0 4)
  else if b.toNat < 0x40 then .stUnknown20 (b.extractLsb' 0 5)
  else if b.toNat < 0x80 then .stUnknown40 (b.extractLsb' 0 6)
  else .stUnknown80 (b.extractLsb' 0 7)

/-- Decoding, total on every word of every format. -/
def decode : Encoded → Except DecodeRefusal Instr
  | .hc w => decodeHost w
  | .req b => if b = Config.envStart then .ok .req else .error .badStart
  | .rsp b => .ok (decodeStatus b)

/-! ## The encoder -/

/-- The status byte an `ST.UNKNOWN` row stands for: the row's fixed bits above its free bits (R51, opcode table). -/
def unknownStatus {n : Nat} (base : Byte) (ss : BitVec n) : Byte := base ||| ss.setWidth 8

/-- The word of an instruction, from the encodings of R54, R46 and R51. -/
def encode : Instr → Encoded
  | .nop => .hc (hostWord 0x00#8 0#16)
  | .crcClr => .hc (hostWord 0x01#8 0#16)
  | .crcUpd b => .hc (hostWord 0x02#8 (joinBytes b 0#8))
  | .crcEmit => .hc (hostWord 0x03#8 0#16)
  | .crcVfy w => .hc (hostWord 0x04#8 w)
  | .txbClr => .hc (hostWord 0x10#8 0#16)
  | .txbPush b => .hc (hostWord 0x11#8 (joinBytes b 0#8))
  | .xferExec => .hc (hostWord 0x20#8 0#16)
  | .rxbRd i => .hc (hostWord 0x21#8 (joinBytes i 0#8))
  | .xferFlush => .hc (hostWord 0x22#8 0#16)
  | .regRd r => .hc (hostWord 0x30#8 (joinBytes r 0#8))
  | .sysReset => .hc (hostWord 0x3F#8 0#16)
  | .req => .req 0xFD#8
  | .stOk => .rsp 0x00#8
  | .stRecv => .rsp 0x01#8
  | .stParam => .rsp 0x02#8
  | .stExec => .rsp 0x03#8
  | .stUnknown04 ss => .rsp (unknownStatus 0x04#8 ss)
  | .stUnknown08 ss => .rsp (unknownStatus 0x08#8 ss)
  | .stUnknown10 ss => .rsp (unknownStatus 0x10#8 ss)
  | .stUnknown20 ss => .rsp (unknownStatus 0x20#8 ss)
  | .stUnknown40 ss => .rsp (unknownStatus 0x40#8 ss)
  | .stUnknown80 ss => .rsp (unknownStatus 0x80#8 ss)

/-! ## The opcode table -/

/-- The format of a row of the opcode table (R45; `FRM` has no row, it is opaque bytes inside `REQ`, R47). -/
inductive Format where
  | hc
  | req
  | rsp
  deriving DecidableEq, Repr

/-- One row of spec/opcode_table.json: a word of the format belongs to it when its bits under `mask` are `value`. -/
structure TableRow where
  mnemonic : String
  format : Format
  value : Nat
  mask : Nat
  deriving DecidableEq, Repr

/-- The opcode table, in its own order. -/
def opcodeTable : List TableRow :=
  [⟨"NOP", .hc, 0x000000, 0xFFFFFF⟩, ⟨"CRC.CLR", .hc, 0x010000, 0xFFFFFF⟩, ⟨"CRC.UPD", .hc, 0x020000, 0xFFFF00⟩,
   ⟨"CRC.EMIT", .hc, 0x030000, 0xFFFFFF⟩, ⟨"CRC.VFY", .hc, 0x040000, 0xFF0000⟩, ⟨"TXB.CLR", .hc, 0x100000, 0xFFFFFF⟩,
   ⟨"TXB.PUSH", .hc, 0x110000, 0xFFFF00⟩, ⟨"XFER.EXEC", .hc, 0x200000, 0xFFFFFF⟩, ⟨"RXB.RD", .hc, 0x210000, 0xFFFF00⟩,
   ⟨"XFER.FLUSH", .hc, 0x220000, 0xFFFFFF⟩, ⟨"REG.RD", .hc, 0x300000, 0xFFFF00⟩, ⟨"SYS.RESET", .hc, 0x3F0000, 0xFFFFFF⟩,
   ⟨"REQ", .req, 0xFD, 0xFF⟩, ⟨"ST.OK", .rsp, 0x00, 0xFF⟩, ⟨"ST.RECV", .rsp, 0x01, 0xFF⟩, ⟨"ST.PARAM", .rsp, 0x02, 0xFF⟩,
   ⟨"ST.EXEC", .rsp, 0x03, 0xFF⟩, ⟨"ST.UNKNOWN.04_07", .rsp, 0x04, 0xFC⟩, ⟨"ST.UNKNOWN.08_0F", .rsp, 0x08, 0xF8⟩,
   ⟨"ST.UNKNOWN.10_1F", .rsp, 0x10, 0xF0⟩, ⟨"ST.UNKNOWN.20_3F", .rsp, 0x20, 0xE0⟩, ⟨"ST.UNKNOWN.40_7F", .rsp, 0x40, 0xC0⟩,
   ⟨"ST.UNKNOWN.80_FF", .rsp, 0x80, 0x80⟩]

/-- The place of an instruction's row in the opcode table. -/
def Instr.rowIndex : Instr → Nat
  | .nop => 0
  | .crcClr => 1
  | .crcUpd _ => 2
  | .crcEmit => 3
  | .crcVfy _ => 4
  | .txbClr => 5
  | .txbPush _ => 6
  | .xferExec => 7
  | .rxbRd _ => 8
  | .xferFlush => 9
  | .regRd _ => 10
  | .sysReset => 11
  | .req => 12
  | .stOk => 13
  | .stRecv => 14
  | .stParam => 15
  | .stExec => 16
  | .stUnknown04 _ => 17
  | .stUnknown08 _ => 18
  | .stUnknown10 _ => 19
  | .stUnknown20 _ => 20
  | .stUnknown40 _ => 21
  | .stUnknown80 _ => 22

/-- A word's format. -/
def Encoded.format : Encoded → Format
  | .hc _ => .hc
  | .req _ => .req
  | .rsp _ => .rsp

/-- A word's bits, bit 0 its least significant. -/
def Encoded.bits : Encoded → Nat
  | .hc w => w.toNat
  | .req b => b.toNat
  | .rsp b => b.toNat

/-- The word lies in the row: same format, and the row's value under the row's mask. -/
def TableRow.fits (r : TableRow) (c : Encoded) : Bool :=
  decide (c.format = r.format) && decide (c.bits &&& r.mask = r.value)

/-! ## The channel formats as byte sequences -/

/-- The request envelope of a frame: `[0xFD, len(frame)] ++ frame` (R46). No CRC, no escape, no end marker (R84). -/
def encodeRequest (frame : List Byte) : List Byte :=
  [Config.envStart, BitVec.ofNat 8 frame.length] ++ frame

/-- Read one request off the front of a byte sequence: byte 1 is `N`, the request ends `N` bytes later (R57).
Answers the frame and the rest; `none` where no whole request stands there. -/
def decodeRequest : List Byte → Option (List Byte × List Byte)
  | start :: n :: rest =>
    if start = Config.envStart ∧ n.toNat ≤ rest.length then some (rest.take n.toNat, rest.drop n.toNat) else none
  | _ => none

/-- A response as its length rule cuts it (R48, R57). -/
inductive Response where
  /-- A non-zero status byte: the response is that one byte. -/
  | error (status : Byte)
  /-- Status 0, the length byte `L`, and the body of `L − 1` bytes (R49). -/
  | full (l : Byte) (body : List Byte)
  deriving DecidableEq, Repr

/-- Read one response off the front of a byte sequence (R57); `none` where no whole response stands there or its
length byte cannot hold two CRC bytes (R56). -/
def decodeResponse : List Byte → Option (Response × List Byte)
  | [] => none
  | status :: rest =>
    if status = 0#8 then
      match rest with
      | [] => none
      | l :: rest =>
        if lengthByteOk l && decide (l.toNat - 1 ≤ rest.length) then
          some (.full l (rest.take (l.toNat - 1)), rest.drop (l.toNat - 1))
        else none
    else some (.error status, rest)

/-! ## The host's view of the table -/

/-- The instruction the decoder reads from a row's bits. A word of 24 bits stands on the host port. A byte is the
first byte of a request where it is `0xFD`, and otherwise the first byte of a response: the byte alone does not tell
its format (DESIGN CHOICE, notes/assumptions/6.md). -/
def decodeTableWord (nbits w : Nat) : Option Instr :=
  match nbits with
  | 24 => (decode (.hc (BitVec.ofNat 24 w))).toOption
  | 8 =>
    if BitVec.ofNat 8 w = Config.envStart then (decode (.req (BitVec.ofNat 8 w))).toOption
    else (decode (.rsp (BitVec.ofNat 8 w))).toOption
  | _ => none

end Sys2Proof
end

