-- ==== Sys2Proof/Machine/CrcUnit.lean ====
section
/-! DEFINITION. The functions of the CRC unit (spec/40_crc.md R65 to R68). -/

namespace Sys2Proof.Machine

/-- `crc_bit` (R65): the top bit is taken before the shift, the polynomial applied after it. -/
def crcBit (c : Crc) (d : Bool) : Crc :=
  if d ^^ c.getLsbD 15 then (c <<< 1) ^^^ Config.crcPoly else c <<< 1

/-- `crc_byte` (R66): eight bit steps, bit 0 of the byte first. -/
def crcByte (c : Crc) (b : Byte) : Crc :=
  [0, 1, 2, 3, 4, 5, 6, 7].foldl (fun c i => crcBit c (b.getLsbD i)) c

/-- Folding a byte sequence into a CRC register, bytes in index order (R67, R73 item 5). -/
def crcFold (c : Crc) (s : List Byte) : Crc := s.foldl crcByte c

/-- `crc16` (R67): from the initial value, with no final exclusive or. -/
def crc16 (s : List Byte) : Crc := crcFold Config.crcInit s

/-- `crc_emit` (R68): low byte first. -/
def crcEmit (c : Crc) : List Byte := [lowByte c, highByte c]

end Sys2Proof.Machine
end

