-- ==== Sys2Proof/Machine/State.lean ====
section
/-! DEFINITION. The state of the machine as plain data: the block (spec/10_state.md R10), the channel (R22), the host
port (spec/43_system.md R114), and the schedule of the agents around the block (spec/20_memory.md R40). -/

namespace Sys2Proof.Machine

/-- `RES.TAG` (R15). Values 6 and 7 are never written and have no constructor (notes/assumptions/10.md). -/
inductive ResTag where
  | none
  | ok
  | receiveError
  | paramError
  | executeError
  | communicationError
  deriving DecidableEq, Repr

/-- `CAUSE` (R16). -/
inductive Cause where
  | none
  | statusTimeout
  | statusNonzero
  | statusUnknown
  | lenTimeout
  | lenBad
  | bodyShort
  | crcMismatch
  deriving DecidableEq, Repr

/-- `PHASE`, the sequencer (R19). Value 7 is not used and has no constructor (notes/assumptions/10.md). -/
inductive Phase where
  | idle
  | tx
  | rxStatus
  | rxLen
  | rxBody
  | verify
  | flush
  deriving DecidableEq, Repr

/-- The acknowledge codes (R55). -/
inductive Ack where
  | done
  | badOp
  | badArg
  | txFull
  | frameShort
  | frameLong
  | rxIndex
  | badReg
  deriving DecidableEq, Repr

/-- What the host receives for an accepted word: the acknowledge code and the bytes returned on the read-data port,
in the order the operation's `return` lists them (R8, R55, R114). -/
structure Answer where
  ack : Ack
  rdata : List Byte
  deriving DecidableEq, Repr

/-- A byte space of the block, `TXBUF` or `RXBUF` (R30): the bytes that have been written, as (index, byte) cells with
rising indices. An index that is not listed holds no value (notes/assumptions/4.md). -/
abbrev Memory := List Host.Cell

/-- One turn of the schedule: which agent acts in a step, and with what data (R40, R114, R140;
notes/assumptions/1.md). -/
inductive Turn where
  /-- The block acts: it accepts a host word, or performs the phase it stands before. -/
  | block
  /-- The host presents a command word (R114). -/
  | host (w : HostWord)
  /-- The peer appends a byte to the tail of `ch.in` (R40). -/
  | peerSend (b : Byte)
  /-- The peer takes `n` bytes, or all there are, from the head of `ch.outq` (R40). -/
  | peerTake (n : Nat)
  /-- The channel's timer: pin `rx_timeout` (R40, R129). -/
  | timer
  /-- The platform asserts and releases `rst` (R140, R141). -/
  | rst
  deriving DecidableEq, Repr

/-- The whole state. -/
structure State where
  /-- `CRC` (R11). -/
  crc : Crc
  /-- `MATCH` (R12). -/
  matchFlag : Bool
  /-- `TXBUF` (R13). -/
  txbuf : Memory
  /-- `TXLEN` (R13). -/
  txlen : Byte
  /-- `RXBUF` (R14). -/
  rxbuf : Memory
  /-- `DLEN` (R14). -/
  dlen : Byte
  /-- `RXVALID` (R14). -/
  rxvalid : Bool
  /-- `RES.TAG` (R15). -/
  resTag : ResTag
  /-- `RES.CODE` (R15). -/
  resCode : Byte
  /-- `CAUSE` (R16). -/
  cause : Cause
  /-- `RAWSTATUS` (R17). -/
  rawStatus : Byte
  /-- `RAWLEN` (R17). -/
  rawLen : Byte
  /-- `VCRC` (R18). -/
  vcrc : Crc
  /-- `PHASE` (R19). -/
  phase : Phase
  /-- `ch.in`, head first (R22). -/
  chIn : List Byte
  /-- `ch.outq`, head first (R22). -/
  chOutq : List Byte
  /-- `ch.sent`, the ghost log of every byte passed to `ChWrite` (R22). -/
  chSent : List Byte
  /-- The words the host has presented and the block has not accepted, in the host's order (R58, R114). -/
  hostq : List HostWord
  /-- `some` while `h_done` is high: the acknowledge and the returned bytes of the last operation that finished
  (R114). `none` while `h_done` is low: an exchange runs, or no word has been accepted since the hardware reset. -/
  answer : Option Answer
  /-- The model's own field: the agents' coming turns (R40; notes/assumptions/1.md). -/
  turns : List Turn
  deriving DecidableEq, Repr

/-- Why the machine stops. Every one is the model's own, for states that R24 and R100 exclude (R127 allows such
faults and says that no outcome of the block itself is one), and so safe. -/
inductive Fault where
  /-- Raised by every meaning when it is applied in another phase than the one it belongs to: a host operation
  outside `IDLE` (the port holds such a word, R114), `REQ` outside `TX`, a status row outside `RX_STATUS` (R100).
  `step` applies a meaning in its own phase only. Safe. -/
  | outsidePhase (needed : Phase)
  /-- Raised by `REQ` when a byte of `TXBUF[0 .. TXLEN)` has never been written (R13). Safe. -/
  | txbufUnwritten
  /-- Raised by `RXB.RD` and by the phase `VERIFY` when a byte of `RXBUF` they read has never been written (R14).
  Safe. -/
  | rxbufUnwritten
  deriving DecidableEq, Repr

/-- Why an instruction gets no meaning. -/
inductive Refusal where
  /-- Raised by an arm of `exec` whose instruction has no meaning yet: none is left. The block's own refusals are
  acknowledge codes, ordinary results (R113, R127). Safe. -/
  | notModelled (mnemonic : String)
  deriving DecidableEq, Repr

/-- The outcome of a step or of a meaning. -/
abbrev Result := Host.Outcome State Fault Refusal

/-- The machine right after the hardware reset (R25, R140). The buffers hold no value (notes/assumptions/4.md); the
channel and the host's words, which reset does not touch, are empty (notes/assumptions/2.md, 3.md, 8.md). -/
def State.reset : State where
  crc := 0x0000#16
  matchFlag := false
  txbuf := []
  txlen := 0#8
  rxbuf := []
  dlen := 0#8
  rxvalid := false
  resTag := .none
  resCode := 0#8
  cause := .none
  rawStatus := 0x00#8
  rawLen := 0x00#8
  vcrc := 0x0000#16
  phase := .idle
  chIn := []
  chOutq := []
  chSent := []
  hostq := []
  answer := none
  turns := []

end Sys2Proof.Machine
end

