-- ==== Sys2Proof/Machine/Flags.lean ====
section
/-! DEFINITION. The flags: `MATCH` and `RXVALID`, their view `FLAGS` (spec/10_state.md R12, R14, R20), and the codes
of the enumerated registers as the host reads them (R15, R16, R19, R55). -/

namespace Sys2Proof.Machine

/-- The value `CRC.VFY w` gives `MATCH`: 1 when `CRC = w`, 0 otherwise (R12, R72). -/
def matchOf (crc w : Crc) : Bool := decide (crc = w)

/-- `FLAGS`: bit 0 `MATCH`, bit 1 `RXVALID`, bits 7 to 2 zero (R20). -/
def flags (s : State) : Byte := (BitVec.ofBool s.matchFlag).setWidth 8 ||| ((BitVec.ofBool s.rxvalid).setWidth 8 <<< 1)

/-- The number of a `RES.TAG` (R15). -/
def ResTag.code : ResTag → BitVec 3
  | .none => 0
  | .ok => 1
  | .receiveError => 2
  | .paramError => 3
  | .executeError => 4
  | .communicationError => 5

/-- The number of a `CAUSE` (R16). -/
def Cause.code : Cause → BitVec 3
  | .none => 0
  | .statusTimeout => 1
  | .statusNonzero => 2
  | .statusUnknown => 3
  | .lenTimeout => 4
  | .lenBad => 5
  | .bodyShort => 6
  | .crcMismatch => 7

/-- The number of a `PHASE` (R19); the host cannot read it. -/
def Phase.code : Phase → BitVec 3
  | .idle => 0
  | .tx => 1
  | .rxStatus => 2
  | .rxLen => 3
  | .rxBody => 4
  | .verify => 5
  | .flush => 6

/-- The number of an acknowledge, pin `h_ack` (R55). -/
def Ack.code : Ack → BitVec 4
  | .done => 0
  | .badOp => 1
  | .badArg => 2
  | .txFull => 3
  | .frameShort => 4
  | .frameLong => 5
  | .rxIndex => 6
  | .badReg => 7

end Sys2Proof.Machine
end

