-- ==== Sys2Proof/Machine/Ops.lean ====
section
/-! DEFINITION. The named operations: the two byte buffers (spec/20_memory.md R30), the channel (R31, R32), the
answer to the host and the refusal (spec/43_system.md R113, R114), the start, the failure and the success of an exchange
(spec/42_rx_decoder.md R91, R98, R99), reset (spec/10_state.md R25). -/

namespace Sys2Proof.Machine

/-! ## The byte buffers -/

/-- The indices rise strictly, from `lo` on, and lie below the buffer's capacity. -/
def Memory.wfFrom (cap lo : Nat) : Memory → Bool
  | [] => true
  | (a, _) :: m => decide (lo ≤ a) && decide (a < cap) && Memory.wfFrom cap (a + 1) m

/-- The canonical form of a buffer of `cap` bytes. -/
def Memory.wf (cap : Nat) (m : Memory) : Bool := Memory.wfFrom cap 0 m

/-- The byte at an index; `none` where nothing has been written (R13, R14, R25: such a byte holds no value). -/
def Memory.read : Memory → Nat → Option Byte
  | [], _ => none
  | (a, b) :: m, i => if a = i then some b else Memory.read m i

/-- Write one byte. -/
def Memory.write : Memory → Nat → Byte → Memory
  | [], i, b => [(i, b)]
  | (a, x) :: m, i, b =>
    if i < a then (i, b) :: (a, x) :: m
    else if i = a then (i, b) :: m
    else (a, x) :: Memory.write m i b

/-- The `n` bytes from index `i` on, `m[i .. i + n)` (R7); `none` where one of them holds no value. -/
def Memory.readRange (m : Memory) (i : Nat) : Nat → Option (List Byte)
  | 0 => some []
  | n + 1 =>
    match Memory.read m i with
    | none => none
    | some b => (Memory.readRange m (i + 1) n).map (b :: ·)

/-- Write a byte sequence from index `i` on, in index order. -/
def Memory.writeRange (m : Memory) (i : Nat) : List Byte → Memory
  | [] => m
  | b :: bs => Memory.writeRange (Memory.write m i b) (i + 1) bs

/-! ## The answer to the host -/

/-- An operation is finished: `h_done` with its acknowledge and the bytes it returns (R8, R114). -/
def answerHost (ack : Ack) (rdata : List Byte) (s : State) : State :=
  { s with answer := some { ack := ack, rdata := rdata } }

/-- An operation that ends `DONE` and returns the bytes `rdata`. -/
def done (rdata : List Byte) (s : State) : State := answerHost .done rdata s

/-- `refuse(ack)` (R113): nothing of the block or the channel changes, nothing is returned. -/
def refuse (ack : Ack) (s : State) : State := answerHost ack [] s

/-- A meaning belongs to one phase (R100, R114); applied in another it is the model's own fault (R127,
notes/assumptions/5.md). -/
def atPhase (p : Phase) (s : State) (r : Result) : Result :=
  if s.phase = p then r else .fault (.outsidePhase p)

/-! ## The channel -/

/-- `ChWrite(s)` (R31): one atomic append to `ch.outq` and to the ghost log; it cannot fail. -/
def chWrite (bytes : List Byte) (s : State) : State :=
  { s with chOutq := s.chOutq ++ bytes, chSent := s.chSent ++ bytes }

/-- `ChRead(n)` (R31). With all `n` bytes there it returns them, timer or not. With fewer it ends short, with all the
bytes there are, when the timer has fired (`expired`), and otherwise it waits: `none`. Bytes returned are removed. -/
def chRead (n : Nat) (expired : Bool) (s : State) : Option (List Byte × State) :=
  if n ≤ s.chIn.length ∨ expired = true then some (s.chIn.take n, { s with chIn := s.chIn.drop n }) else none

/-- `ChFlush()` (R32): both directions are discarded; the ghost log is unchanged. -/
def chFlush (s : State) : State := { s with chIn := [], chOutq := [] }

/-! ## The exchange -/

/-- The start of an admitted exchange (R91). The accepted operation is not finished: `h_done` is low (R114,
notes/assumptions/3.md). -/
def startExchange (s : State) : State :=
  { s with
    rxvalid := false, dlen := 0#8, resTag := .none, resCode := 0#8, cause := .none, rawStatus := 0x00#8,
    rawLen := 0x00#8, vcrc := 0x0000#16, phase := .tx, answer := none }

/-- `fail(tag, code, cause)` (R99, R124): taking a TransactionError. It records the error, ends the exchange and
acknowledges `DONE`. Nothing is saved and nothing is flushed; there is no return operation (R125). -/
def fail (tag : ResTag) (code : Byte) (cause : Cause) (s : State) : State :=
  done [] { s with resTag := tag, resCode := code, cause := cause, phase := .idle }

/-- A local failure: CommunicationError with code 99 (R52, R120). -/
def failLocal (cause : Cause) (s : State) : State := fail .communicationError Config.codeComm cause s

/-- Phase `FLUSH`, successful completion (R98): flush, publish the data, acknowledge `DONE`. -/
def completeExchange (s : State) : State :=
  done [] { chFlush s with
    dlen := s.rawLen - 3#8, rxvalid := true, resTag := .ok, resCode := 0#8, phase := .idle }

/-! ## Reset -/

/-- Every piece of the block's state takes its reset value (R25, R112, R140); the channel, the words the host has
presented and the other agents' turns are not the block's and stay. -/
def resetBlock (s : State) : State :=
  { State.reset with
    chIn := s.chIn, chOutq := s.chOutq, chSent := s.chSent, hostq := s.hostq, answer := s.answer, turns := s.turns }

/-- The hardware reset (R140, R141): the block's state is reset, an exchange in progress is abandoned without an
acknowledge, no channel access is made. -/
def hardReset (s : State) : State := { resetBlock s with answer := none }

/-! ## The pins that are functions of the state -/

/-- Pin `busy`: `PHASE ≠ IDLE` (R19, R114). -/
def busy (s : State) : Bool := decide (s.phase ≠ .idle)

/-- Pin `h_ready`: `PHASE = IDLE` (R114). -/
def hReady (s : State) : Bool := decide (s.phase = .idle)

/-- Pin `h_valid` with `h_cmd`: the word the host presents (R114). -/
def hCmd (s : State) : Option HostWord := s.hostq.head?

/-- Pin `h_done` (R114). -/
def hDone (s : State) : Bool := s.answer.isSome

end Sys2Proof.Machine
end

