-- ==== Sys2Proof/Machine/Operands.lean ====
section
/-! DEFINITION. The operand forms: a register number (spec/10_state.md R21), an index of the response data
(spec/42_rx_decoder.md R102), the frame `TXBUF[0 .. TXLEN)` (R13), the body `RXBUF[0 .. L − 1)` (R14). -/

namespace Sys2Proof.Machine

/-- The register map (R21): the value register `r` shows the host; `none` for the reserved numbers. -/
def regRead (s : State) (r : Byte) : Option Byte :=
  match r.toNat with
  | 0x00 => some (lowByte s.crc)
  | 0x01 => some (highByte s.crc)
  | 0x02 => some (flags s)
  | 0x03 => some s.txlen
  | 0x04 => some s.dlen
  | 0x05 => some (s.resTag.code.setWidth 8)
  | 0x06 => some s.resCode
  | 0x07 => some (s.cause.code.setWidth 8)
  | 0x08 => some s.rawStatus
  | 0x09 => some s.rawLen
  | 0x0A => some (lowByte s.vcrc)
  | 0x0B => some (highByte s.vcrc)
  | _ => none

/-- The host may read data byte `i` of the last good response: `RXVALID = 1` and `i < DLEN` (R102). -/
def rxReadable (s : State) (i : Byte) : Bool := s.rxvalid && decide (i.toNat < s.dlen.toNat)

/-- The frame, `TXBUF[0 .. TXLEN)` (R13). -/
def frameOf (s : State) : Option (List Byte) := Memory.readRange s.txbuf 0 s.txlen.toNat

/-- The body of the response whose length byte is `RAWLEN`, `RXBUF[0 .. L − 1)` (R14, R49). That the
phase `VERIFY` takes the body from here is the model's choice (notes/assumptions/13.md). -/
def bodyOf (s : State) : Option (List Byte) := Memory.readRange s.rxbuf 0 (s.rawLen.toNat - 1)

end Sys2Proof.Machine
end

