-- ==== Sys2Proof/Machine/CrcOps.lean ====
section
/-! DEFINITION. The operations of the CRC unit (spec/40_crc.md R69 to R72). `BADARG` is decided by the decoder. -/

namespace Sys2Proof.Machine

/-- `CRC.CLR` (R69). `MATCH` and `VCRC` stay. -/
def execCrcClr (s : State) : Result := atPhase .idle s (.next (done [] { s with crc := Config.crcInit }))

/-- `CRC.UPD b` (R70). -/
def execCrcUpd (b : Byte) (s : State) : Result := atPhase .idle s (.next (done [] { s with crc := crcByte s.crc b }))

/-- `CRC.EMIT` (R71): the two bytes in channel order; `CRC` keeps its value. -/
def execCrcEmit (s : State) : Result := atPhase .idle s (.next (done (crcEmit s.crc) s))

/-- `CRC.VFY w` (R72). -/
def execCrcVfy (w : Crc) (s : State) : Result :=
  atPhase .idle s (.next (done [] { s with matchFlag := matchOf s.crc w }))

end Sys2Proof.Machine
end

