-- ==== Sys2Proof/Machine/FrameBuffer.lean ====
section
/-! DEFINITION. Filling the frame buffer (spec/41_tx_encoder.md R80, R81). -/

namespace Sys2Proof.Machine

/-- `TXB.CLR` (R80): the bytes are not erased, they stop being part of the frame. -/
def execTxbClr (s : State) : Result := atPhase .idle s (.next (done [] { s with txlen := 0#8 }))

/-- `TXB.PUSH b` (R81): append one byte, refused on a full buffer. -/
def execTxbPush (b : Byte) (s : State) : Result :=
  atPhase .idle s
    (if s.txlen.toNat = Config.txbufCap then .next (refuse .txFull s)
     else .next (done [] { s with txbuf := Memory.write s.txbuf s.txlen.toNat b, txlen := s.txlen + 1#8 }))

end Sys2Proof.Machine
end

