-- ==== Sys2Proof/Machine/System.lean ====
section
/-! DEFINITION. The system operations (spec/43_system.md R110 to R112). -/

namespace Sys2Proof.Machine

/-- `NOP` (R110). -/
def execNop (s : State) : Result := atPhase .idle s (.next (done [] s))

/-- `REG.RD r` (R111). -/
def execRegRd (r : Byte) (s : State) : Result :=
  atPhase .idle s
    (match regRead s r with
     | none => .next (refuse .badReg s)
     | some v => .next (done [v] s))

/-- `SYS.RESET` (R112): all of the block's state; the channel is not touched. -/
def execSysReset (s : State) : Result := atPhase .idle s (.next (done [] (resetBlock s)))

end Sys2Proof.Machine
end

