-- ==== Sys2Proof/Machine/Transactor.lean ====
section
/-! DEFINITION. The exchange (spec/42_rx_decoder.md, spec/41_tx_encoder.md): the instructions `XFER.EXEC`, `REQ` and
the status rows, the phases that have no row of the table, and the operations on the result and the channel. -/

namespace Sys2Proof.Machine

/-! ## Instructions -/

/-- `XFER.EXEC` (R90): the admission check (R82, `TXLEN + 1` without wrap), then the start of the exchange (R91). The
later phases are steps of their own (R100, R114). -/
def execXferExec (s : State) : Result :=
  atPhase .idle s
    (if s.txlen.toNat < Config.execMinFrame then .next (refuse .frameShort s)
     else if s.txlen.toNat + 1 > Config.execMaxFrame + 1 then .next (refuse .frameLong s)
     else .next (startExchange s))

/-- `REQ`, phase `TX` (R46, R83): the envelope `[0xFD, TXLEN] ++ TXBUF[0 .. TXLEN)` goes out as one write. -/
def execReq (s : State) : Result :=
  atPhase .tx s
    (match frameOf s with
     | none => .fault .txbufUnwritten
     | some frame => .next { chWrite ([Config.envStart, s.txlen] ++ frame) s with phase := .rxStatus })

/-- `ST.OK` (R93): go on to the length byte. -/
def execStOk (s : State) : Result :=
  atPhase .rxStatus s (.next { s with rawStatus := 0x00#8, phase := .rxLen })

/-- `ST.RECV` (R93): the chip reports a receive error. -/
def execStRecv (s : State) : Result :=
  atPhase .rxStatus s (.next (fail .receiveError 1#8 .statusNonzero { s with rawStatus := 0x01#8 }))

/-- `ST.PARAM` (R93): the chip reports a param error. -/
def execStParam (s : State) : Result :=
  atPhase .rxStatus s (.next (fail .paramError 2#8 .statusNonzero { s with rawStatus := 0x02#8 }))

/-- `ST.EXEC` (R93): the chip reports an execute error. -/
def execStExec (s : State) : Result :=
  atPhase .rxStatus s (.next (fail .executeError 3#8 .statusNonzero { s with rawStatus := 0x03#8 }))

/-- A status byte outside the contract (R93, D11): a local failure that keeps the raw byte. -/
def statusUnknown (b : Byte) (s : State) : Result :=
  atPhase .rxStatus s (.next (failLocal .statusUnknown { s with rawStatus := b }))

/-- `ST.UNKNOWN.04_07` (R93). -/
def execStUnknown04 (ss : BitVec 2) (s : State) : Result := statusUnknown (unknownStatus 0x04#8 ss) s

/-- `ST.UNKNOWN.08_0F` (R93). -/
def execStUnknown08 (ss : BitVec 3) (s : State) : Result := statusUnknown (unknownStatus 0x08#8 ss) s

/-- `ST.UNKNOWN.10_1F` (R93). -/
def execStUnknown10 (ss : BitVec 4) (s : State) : Result := statusUnknown (unknownStatus 0x10#8 ss) s

/-- `ST.UNKNOWN.20_3F` (R93). -/
def execStUnknown20 (ss : BitVec 5) (s : State) : Result := statusUnknown (unknownStatus 0x20#8 ss) s

/-- `ST.UNKNOWN.40_7F` (R93). -/
def execStUnknown40 (ss : BitVec 6) (s : State) : Result := statusUnknown (unknownStatus 0x40#8 ss) s

/-- `ST.UNKNOWN.80_FF` (R93). -/
def execStUnknown80 (ss : BitVec 7) (s : State) : Result := statusUnknown (unknownStatus 0x80#8 ss) s

/-- `RXB.RD i` (R102): one data byte of the last good response. -/
def execRxbRd (i : Byte) (s : State) : Result :=
  atPhase .idle s
    (if rxReadable s i then
      match Memory.read s.rxbuf i.toNat with
      | none => .fault .rxbufUnwritten
      | some b => .next (done [b] s)
     else .next (refuse .rxIndex s))

/-- `XFER.FLUSH` (R103). -/
def execXferFlush (s : State) : Result := atPhase .idle s (.next (done [] (chFlush s)))

/-! ## The phases without a row -/

/-- How many bytes the read of the present phase asks for; `none` in a phase that reads nothing (R92, R94, R96). -/
def pendingRead (s : State) : Option Nat :=
  match s.phase with
  | .rxStatus => some 1
  | .rxLen => some 1
  | .rxBody => some (s.rawLen.toNat - 1)
  | .idle | .tx | .verify | .flush => none

/-- A read is waiting with too few bytes: the one time the timer may act (R31, R40). -/
def readWaiting (s : State) : Bool :=
  match pendingRead s with
  | none => false
  | some n => decide (s.chIn.length < n)

/-- Phase `RX_LEN` (R94, R95). -/
def phaseRxLen (expired : Bool) (s : State) : Result :=
  match chRead 1 expired s with
  | none => .next s
  | some ([], t) => .next (failLocal .lenTimeout t)
  | some (l :: _, t) =>
    if l.toNat < Config.rspOverhead then .next (failLocal .lenBad { t with rawLen := l })
    else .next { t with rawLen := l, phase := .rxBody }

/-- Phase `RX_BODY` (R96): the bytes that arrived are stored, complete or short. -/
def phaseRxBody (expired : Bool) (s : State) : Result :=
  match chRead (s.rawLen.toNat - 1) expired s with
  | none => .next s
  | some (b, t) =>
    if b.length < s.rawLen.toNat - 1 then
      .next (failLocal .bodyShort { t with rxbuf := Memory.writeRange t.rxbuf 0 b })
    else .next { t with rxbuf := Memory.writeRange t.rxbuf 0 b, phase := .verify }

/-- Phase `VERIFY` (R50, R97): recompute the CRC over the length byte and the data, compare it with the two trailing
bytes, low byte first. The bytes `b` that R90 and R97 carry over from the read of `RX_BODY` have no state of their own in
R10: they are read back from `RXBUF`, where R96 has stored them, although R41 says that `RXBUF` is read only outside an
exchange (DESIGN CHOICE, notes/assumptions/13.md). -/
def phaseVerify (s : State) : Result :=
  match bodyOf s with
  | none => .fault .rxbufUnwritten
  | some b =>
    let v := crc16 (s.rawLen :: b.take (s.rawLen.toNat - 3))
    if b.drop (s.rawLen.toNat - 3) = crcEmit v then .next { s with vcrc := v, phase := .flush }
    else .next (failLocal .crcMismatch { s with vcrc := v })

/-- Phase `FLUSH` (R98). -/
def phaseFlush (s : State) : Result := .next (completeExchange s)

end Sys2Proof.Machine
end

