-- ==== Sys2Proof/Machine/Dispatch.lean ====
section
/-! DEFINITION. The meaning of every instruction, one arm per row of the opcode table. -/

namespace Sys2Proof.Machine

def exec (i : Instr) (s : State) : Host.Outcome State Fault Refusal :=
  match i with
  | .nop => Sys2Proof.Machine.execNop s
  | .crcClr => Sys2Proof.Machine.execCrcClr s
  | .crcUpd b => Sys2Proof.Machine.execCrcUpd b s
  | .crcEmit => Sys2Proof.Machine.execCrcEmit s
  | .crcVfy w => Sys2Proof.Machine.execCrcVfy w s
  | .txbClr => Sys2Proof.Machine.execTxbClr s
  | .txbPush b => Sys2Proof.Machine.execTxbPush b s
  | .xferExec => Sys2Proof.Machine.execXferExec s
  | .rxbRd k => Sys2Proof.Machine.execRxbRd k s
  | .xferFlush => Sys2Proof.Machine.execXferFlush s
  | .regRd r => Sys2Proof.Machine.execRegRd r s
  | .sysReset => Sys2Proof.Machine.execSysReset s
  | .req => Sys2Proof.Machine.execReq s
  | .stOk => Sys2Proof.Machine.execStOk s
  | .stRecv => Sys2Proof.Machine.execStRecv s
  | .stParam => Sys2Proof.Machine.execStParam s
  | .stExec => Sys2Proof.Machine.execStExec s
  | .stUnknown04 ss => Sys2Proof.Machine.execStUnknown04 ss s
  | .stUnknown08 ss => Sys2Proof.Machine.execStUnknown08 ss s
  | .stUnknown10 ss => Sys2Proof.Machine.execStUnknown10 ss s
  | .stUnknown20 ss => Sys2Proof.Machine.execStUnknown20 ss s
  | .stUnknown40 ss => Sys2Proof.Machine.execStUnknown40 ss s
  | .stUnknown80 ss => Sys2Proof.Machine.execStUnknown80 ss s

end Sys2Proof.Machine
end

