-- ==== Sys2Proof/Machine/Sequencer.lean ====
section
/-! DEFINITION. What a step does: the block's turn by `PHASE` (spec/10_state.md R19, spec/42_rx_decoder.md R100), the
acceptance of a host word (spec/43_system.md R114), and the turns of the other agents (spec/20_memory.md R40). -/

namespace Sys2Proof.Machine

/-- The acknowledge of a word that is no instruction (R55, R113). `badStart` is no host word and does not reach here. -/
def ackOf : DecodeRefusal → Ack
  | .badOp => .badOp
  | .badArg => .badArg
  | .badStart => .badOp

/-- An accepted host word (R114): decoded and performed, or refused by `BADOP` or `BADARG`. -/
def acceptWord (w : HostWord) (s : State) : Result :=
  match decode (.hc w) with
  | .ok i => exec i s
  | .error e => .next (refuse (ackOf e) s)

/-- Phase `RX_STATUS` (R92, R93): read one byte; a short read is a timeout, a byte is decoded and classified. -/
def phaseRxStatus (expired : Bool) (s : State) : Result :=
  match chRead 1 expired s with
  | none => .next s
  | some ([], t) => .next (failLocal .statusTimeout t)
  | some (b :: _, t) => exec (decodeStatus b) t

/-- The block's turn. `expired`: the channel's timer has fired. With no word presented the block in `IDLE` stays as it
is (R19, R114). -/
def blockTurn (expired : Bool) (s : State) : Result :=
  match s.phase with
  | .idle =>
    match s.hostq with
    | [] => .next s
    | w :: q => acceptWord w { s with hostq := q }
  | .tx => exec .req s
  | .rxStatus => phaseRxStatus expired s
  | .rxLen => phaseRxLen expired s
  | .rxBody => phaseRxBody expired s
  | .verify => phaseVerify s
  | .flush => phaseFlush s

/-- One agent's turn (R40, R114, R140). The timer acts only on a read that waits with too few bytes (R31). -/
def agentTurn (t : Turn) (s : State) : Result :=
  match t with
  | .block => blockTurn false s
  | .host w => .next { s with hostq := s.hostq ++ [w] }
  | .peerSend b => .next { s with chIn := s.chIn ++ [b] }
  | .peerTake n => .next { s with chOutq := s.chOutq.drop n }
  | .timer => if readWaiting s then blockTurn true s else .next s
  | .rst => .next (hardReset s)

/-- The next turn of the schedule. When no agent has a turn left the block goes on alone, and a read that waits is
ended by the timer: every read ends (R42; notes/assumptions/1.md). -/
def nextTurn (s : State) : Result :=
  match s.turns with
  | [] => blockTurn true s
  | t :: ts => agentTurn t { s with turns := ts }

/-- Put a host word where the block takes its next one: presented at the port, the port ready (R114). -/
def presentWord (w : HostWord) (s : State) : State :=
  { s with phase := .idle, hostq := w :: s.hostq, turns := .block :: s.turns }

/-- Put the block before the phase that sends the request whose first byte is the start byte (R46, R83). -/
def presentRequest (s : State) : State := { s with phase := .tx, turns := .block :: s.turns }

/-- Put a status byte where the block reads its next one (R92). -/
def presentStatus (b : Byte) (s : State) : State :=
  { s with phase := .rxStatus, chIn := b :: s.chIn, turns := .block :: s.turns }

/-- Put a row's word where the next step fetches (`decodeTableWord` decodes the same words). -/
def presentTableWord (nbits w : Nat) (s : State) : State :=
  match nbits with
  | 24 => presentWord (BitVec.ofNat 24 w) s
  | 8 => if BitVec.ofNat 8 w = Config.envStart then presentRequest s else presentStatus (BitVec.ofNat 8 w) s
  | _ => s

end Sys2Proof.Machine
end

