-- ==== Sys2Proof/Machine/Step.lean ====
section
/-! DEFINITION. The step of the machine and the placing of an instruction where it is fetched. -/

namespace Sys2Proof.Machine

/-- One step: one agent's turn, one phase of the block (R100, R114). -/
def step (s : State) : Host.Outcome State Fault Refusal := nextTurn s

/-- `s` with a row's word where the very next step fetches it (notes/assumptions/7.md). -/
def State.withFetchWord (s : State) (nbits w : Nat) : State := presentTableWord nbits w s

end Sys2Proof.Machine
end

