-- ==== Sys2Proof/Machine/Pseudo.lean ====
section
/-! DEFINITION. The pseudo-operations (spec/30_encoding.md R59): lists of instructions the host issues in order. -/

namespace Sys2Proof.Machine

/-- `CRC16 s` (R59). -/
def pseudoCrc16 (s : List Byte) : List Instr := [.crcClr] ++ s.map .crcUpd ++ [.crcEmit]

/-- `CHECK s, lo, hi` (R59); the host then tests bit 0 of the byte the last instruction returns. -/
def pseudoCheck (s : List Byte) (lo hi : Byte) : List Instr :=
  [.crcClr] ++ s.map .crcUpd ++ [.crcVfy (joinBytes lo hi), .regRd 0x02#8]

/-- `EXECUTE f` up to the read of `RESTAG` (R59). -/
def pseudoExecute (frame : List Byte) : List Instr :=
  [.txbClr] ++ frame.map .txbPush ++ [.xferExec, .regRd 0x05#8]

/-- `EXECUTE f` after the tag is known (R59): on `Ok` (1) the read of `DLEN`, otherwise the read of `RESCODE`. -/
def pseudoExecuteThen (tag : Byte) : List Instr := if tag = 1#8 then [.regRd 0x04#8] else [.regRd 0x06#8]

/-- `EXECUTE f` after `DLEN` is known (R59): the reads of the data bytes. -/
def pseudoExecuteData (dlen : Byte) : List Instr :=
  (List.range dlen.toNat).map fun i => .rxbRd (BitVec.ofNat 8 i)

end Sys2Proof.Machine
end

