-- ==== Sys2Proof/Safety.lean ====
section
/-! DEFINITION. What the claims are said in: the invariants of spec/10_state.md R24, the transition table of
spec/42_rx_decoder.md R100, the exchange as one piece of pseudocode (R90), a well-formed response (spec/30_encoding.md
R48), what an observer of the block can see (R25), and instruction lists as the host issues them (R58). -/

namespace Sys2Proof.Safety

open Sys2Proof.Machine

/-! ## The invariants of R24 -/

/-- The six rows of the table of R15: the pairs `(RES.TAG, RES.CODE)` that occur. -/
def resRow (tag : ResTag) (code : Byte) : Bool :=
  match tag with
  | .none => decide (code = 0#8)
  | .ok => decide (code = 0#8)
  | .receiveError => decide (code = 1#8)
  | .paramError => decide (code = 2#8)
  | .executeError => decide (code = 3#8)
  | .communicationError => decide (code = 99#8)

/-- `RXBUF` holds a whole body whose two trailing bytes are the CRC, low byte first, of the length byte and the data,
and `VCRC` is that CRC (R14, R24 item 3, R97). -/
def bodyVerified (s : State) : Prop :=
  3 ≤ s.rawLen.toNat ∧
    ∃ b, bodyOf s = some b ∧ s.vcrc = crc16 (s.rawLen :: b.take (s.rawLen.toNat - 3)) ∧
      b.drop (s.rawLen.toNat - 3) = [lowByte s.vcrc, highByte s.vcrc]

/-- What the registers show for each `CAUSE` when no exchange runs (R15 to R18, R24 items 3 and 6, R122). -/
def causeRecords (s : State) : Prop :=
  match s.cause with
  | .none =>
    (s.resTag = .none ∧ s.rawStatus = 0#8 ∧ s.rawLen = 0#8 ∧ s.vcrc = 0#16) ∨
      (s.resTag = .ok ∧ s.rawStatus = 0#8)
  | .statusTimeout => s.resTag = .communicationError ∧ s.rawStatus = 0#8 ∧ s.rawLen = 0#8 ∧ s.vcrc = 0#16
  | .statusNonzero =>
    (s.resTag = .receiveError ∨ s.resTag = .paramError ∨ s.resTag = .executeError) ∧ s.resCode = s.rawStatus ∧
      s.rawLen = 0#8 ∧ s.vcrc = 0#16
  | .statusUnknown => s.resTag = .communicationError ∧ 4 ≤ s.rawStatus.toNat ∧ s.rawLen = 0#8 ∧ s.vcrc = 0#16
  | .lenTimeout => s.resTag = .communicationError ∧ s.rawStatus = 0#8 ∧ s.rawLen = 0#8 ∧ s.vcrc = 0#16
  | .lenBad => s.resTag = .communicationError ∧ s.rawStatus = 0#8 ∧ s.rawLen.toNat < 3 ∧ s.vcrc = 0#16
  | .bodyShort => s.resTag = .communicationError ∧ s.rawStatus = 0#8 ∧ 3 ≤ s.rawLen.toNat ∧ s.vcrc = 0#16
  | .crcMismatch => s.resTag = .communicationError ∧ s.rawStatus = 0#8 ∧ 3 ≤ s.rawLen.toNat

/-- What the phases of an exchange have established when they stand before their step (R90). -/
def phaseRecords (s : State) : Prop :=
  match s.phase with
  | .idle => True
  | .tx | .rxStatus | .rxLen => s.rawStatus = 0#8 ∧ s.rawLen = 0#8 ∧ s.vcrc = 0#16
  | .rxBody => s.rawStatus = 0#8 ∧ 3 ≤ s.rawLen.toNat ∧ s.vcrc = 0#16
  | .verify => s.rawStatus = 0#8 ∧ 3 ≤ s.rawLen.toNat ∧ s.vcrc = 0#16 ∧ ∃ b, bodyOf s = some b
  | .flush => s.rawStatus = 0#8 ∧ bodyVerified s

/-- The invariants of R24, with what they need to be kept by a step. Item 1 of R24 is the width of `txlen`; item 8 is
about changes and is a claim of its own. -/
structure Inv (s : State) : Prop where
  /-- `TXBUF` has its canonical form within 255 indices (R13, R30). -/
  txbufForm : Memory.wf Config.txbufCap s.txbuf = true
  /-- `RXBUF` has its canonical form within 254 indices (R14, R30). -/
  rxbufForm : Memory.wf Config.rxbufCap s.rxbuf = true
  /-- The frame has been written (R13). -/
  frameWritten : ∃ f, frameOf s = some f
  /-- R24 item 2. -/
  validIffOk : s.rxvalid = true ↔ s.resTag = .ok
  /-- R24 item 3, without its clauses on `RAWSTATUS` and `CAUSE`, which `causeRecords` has. -/
  validData : s.rxvalid = true → s.cause = .none ∧ s.dlen = s.rawLen - 3#8 ∧ bodyVerified s
  /-- R24 item 4. -/
  noDataLength : s.rxvalid = false → s.dlen = 0#8
  /-- R24 item 5. -/
  resultRow : resRow s.resTag s.resCode = true
  /-- R24 item 6 and the tables of R16, R17 and R18. -/
  causeAgrees : s.phase = .idle → causeRecords s
  /-- R24 item 7, and no operation is acknowledged while an exchange runs (R114). -/
  busyClear : s.phase ≠ .idle →
    s.resTag = .none ∧ s.resCode = 0#8 ∧ s.rxvalid = false ∧ s.cause = .none ∧ s.answer = none
  /-- The frame of a running exchange was admitted (R82, R41). -/
  busyFrame : s.phase ≠ .idle → frameLengthOk s.txlen.toNat = true
  /-- The phases' own records (R90). -/
  phaseAgrees : phaseRecords s

/-! ## The transition table -/

/-- The rows of R100 for the block's own steps: from, to. -/
def phaseMove (a b : Phase) : Bool :=
  match a, b with
  | .idle, .tx | .tx, .rxStatus | .rxStatus, .idle | .rxStatus, .rxLen | .rxLen, .idle | .rxLen, .rxBody
  | .rxBody, .idle | .rxBody, .verify | .verify, .idle | .verify, .flush | .flush, .idle => true
  | _, _ => false

/-! ## The schedule -/

/-- The block acts next: its turn is due, or no agent has a turn left. -/
def blockNext (s : State) : Prop := s.turns = [] ∨ ∃ ts, s.turns = .block :: ts

/-- The state with the turn that is due taken off the schedule. -/
def turnTaken (s : State) : State := { s with turns := s.turns.tail }

/-- The platform asserts reset in this step. -/
def resetNext (s : State) : Prop := ∃ ts, s.turns = .rst :: ts

/-- The block accepts a word in this step that decodes to `i`. -/
def acceptsNext (s : State) (i : Instr) : Prop :=
  blockNext s ∧ s.phase = .idle ∧ ∃ w q, s.hostq = w :: q ∧ decode (.hc w) = .ok i

/-! ## The exchange as one piece of pseudocode -/

/-- R90 from the admission on, for a frame `f`, against a peer that has sent `ch.in` already and sends no more: a read
with too few bytes ends short. It walks the pseudocode of R90 and knows no phases. -/
def exchange (f : List Byte) (s : State) : State :=
  let s := chWrite ([0xFD#8, s.txlen] ++ f) (startExchange s)
  match s.chIn with
  | [] => fail .communicationError 99#8 .statusTimeout s
  | status :: input =>
    let s := { s with chIn := input, rawStatus := status }
    if status = 1#8 then fail .receiveError 1#8 .statusNonzero s
    else if status = 2#8 then fail .paramError 2#8 .statusNonzero s
    else if status = 3#8 then fail .executeError 3#8 .statusNonzero s
    else if 4 ≤ status.toNat then fail .communicationError 99#8 .statusUnknown s
    else
      match input with
      | [] => fail .communicationError 99#8 .lenTimeout s
      | l :: input =>
        let s := { s with chIn := input, rawLen := l }
        if l.toNat < 3 then fail .communicationError 99#8 .lenBad s
        else
          let b := input.take (l.toNat - 1)
          let s := { s with chIn := input.drop (l.toNat - 1), rxbuf := Memory.writeRange s.rxbuf 0 b }
          if b.length < l.toNat - 1 then fail .communicationError 99#8 .bodyShort s
          else
            let s := { s with vcrc := crc16 (l :: b.take (l.toNat - 3)) }
            if b[l.toNat - 3]? = some (lowByte s.vcrc) ∧ b[l.toNat - 2]? = some (highByte s.vcrc) then
              completeExchange s
            else fail .communicationError 99#8 .crcMismatch s

/-- The response a well-behaved peer sends for the data `d` (R48, R50): status 0, the length byte, the data, the CRC
over length byte and data, low byte first. -/
def goodResponse (d : List Byte) : List Byte :=
  let l := BitVec.ofNat 8 (d.length + 3)
  [0x00#8, l] ++ d ++ crcEmit (crc16 (l :: d))

/-! ## What can be seen of the block -/

/-- Two states that differ only in buffer bytes that hold no value for any operation: bytes of `TXBUF` from `TXLEN` on,
and bytes of `RXBUF` outside the data of a valid response and outside a body that a running exchange still reads
(R13, R14, R25; notes/assumptions/13.md). -/
structure SameVisible (s t : State) : Prop where
  rest : t = { s with txbuf := t.txbuf, rxbuf := t.rxbuf }
  frame : ∀ i < s.txlen.toNat, Memory.read t.txbuf i = Memory.read s.txbuf i
  data : s.rxvalid = true → ∀ i < s.dlen.toNat, Memory.read t.rxbuf i = Memory.read s.rxbuf i
  body : s.phase = .verify ∨ s.phase = .flush →
    ∀ i < s.rawLen.toNat - 1, Memory.read t.rxbuf i = Memory.read s.rxbuf i

/-! ## Instruction lists -/

/-- Perform a list of instructions in order, each after the one before has answered (R58); stops at the first fault or
refusal. -/
def execAll : List Instr → State → Result
  | [], s => .next s
  | i :: is, s =>
    match exec i s with
    | .next t => execAll is t
    | .fault r => .fault r
    | .refused r => .refused r

end Sys2Proof.Safety
end

