-- ==== Sys2Proof/Certificates/Slice0/Obligations.lean ====
section
/-! DEFINITION. The statements for the provers. In the statements about one host operation `acceptWord` is the block's
acceptance of a presented word (spec/43_system.md R114), and an equation for the whole next state says its frame: every
field it does not name keeps its value. -/

open Sys2Proof Sys2Proof.Machine Sys2Proof.Safety

/-! ## Encoding -/

/-- Every instruction, with every operand, reads back from its own word. -/
def Obligations.DecodeReadsBackEncode : Prop :=
  ∀ i : Instr, decode (encode i) = .ok i

/-- Every word of every format that decodes is the word of the instruction it decodes to: no bit is dropped and no
instruction has two words. -/
def Obligations.EncodeReadsBackDecode : Prop :=
  ∀ (c : Encoded) (i : Instr), decode c = .ok i → encode i = c

/-- A word that decodes lies in the row of its instruction; a word that is refused lies in no row. -/
def Obligations.DecodedWordsAreTheTableRows : Prop :=
  (∀ (c : Encoded) (i : Instr), decode c = .ok i →
    ∃ r, opcodeTable[i.rowIndex]? = some r ∧ r.fits c = true) ∧
  (∀ (c : Encoded) (e : DecodeRefusal), decode c = .error e → ∀ r ∈ opcodeTable, r.fits c = false)

/-- R56, first two rows: a host word with an `op` outside the map is `BADOP`; one with a used `op` and a non-zero
argument bit the operation does not use is `BADARG`. -/
def Obligations.UndefinedWordsAreRefusedByName : Prop :=
  ∀ w : HostWord,
    (opField w ∉ [0x00#8, 0x01#8, 0x02#8, 0x03#8, 0x04#8, 0x10#8, 0x11#8, 0x20#8, 0x21#8, 0x22#8, 0x30#8, 0x3F#8] →
      decode (.hc w) = .error .badOp) ∧
    (opField w ∈ [0x00#8, 0x01#8, 0x03#8, 0x10#8, 0x20#8, 0x22#8, 0x3F#8] → argField w ≠ 0#16 →
      decode (.hc w) = .error .badArg) ∧
    (opField w ∈ [0x02#8, 0x11#8, 0x21#8, 0x30#8] → highByte (argField w) ≠ 0#8 →
      decode (.hc w) = .error .badArg)

/-- A sanity statement: a few words, written out from the encodings of R54, R46 and R51, decode to their
instructions. -/
def Obligations.WrittenWordsDecode : Prop :=
  decode (.hc 0b000000000000000000000000#24) = .ok .nop ∧
  decode (.hc 0b000000100000000010100101#24) = .ok (.crcUpd 0xA5#8) ∧
  decode (.hc 0b000001000011001101000011#24) = .ok (.crcVfy 0x3343#16) ∧
  decode (.hc 0b000100010000000011111101#24) = .ok (.txbPush 0xFD#8) ∧
  decode (.hc 0b001000000000000000000000#24) = .ok .xferExec ∧
  decode (.hc 0b001100000000000000001011#24) = .ok (.regRd 0x0B#8) ∧
  decode (.req 0b11111101#8) = .ok .req ∧
  decode (.rsp 0b00000010#8) = .ok .stParam ∧
  decode (.rsp 0b00101001#8) = .ok (.stUnknown20 0b01001#5)

/-- R57: the length rules of the two channel formats. A request is as long as its byte 1 says, counting from behind it;
a response with a non-zero first byte is that one byte, and otherwise ends `L − 1` bytes behind its length byte `L`.
(The host word has 24 bits by its type.) -/
def Obligations.ChannelFormatsReadBack : Prop :=
  (∀ f rest : List Byte, f.length ≤ 255 → decodeRequest (encodeRequest f ++ rest) = some (f, rest)) ∧
  (∀ (status : Byte) (rest : List Byte), status ≠ 0#8 →
    decodeResponse (status :: rest) = some (.error status, rest)) ∧
  (∀ (l : Byte) (body rest : List Byte), 3 ≤ l.toNat → body.length = l.toNat - 1 →
    decodeResponse ([0#8, l] ++ body ++ rest) = some (.full l body, rest))

/-! ## The step -/

/-- A step runs the decoded host word: when the block acts in `IDLE` and the presented word decodes to `i`, the step is
`exec i` on the state with that word and that turn taken. -/
def Obligations.StepRunsTheHostWord : Prop :=
  ∀ (s : State) (w : HostWord) (q : List HostWord) (i : Instr),
    blockNext s → s.phase = .idle → s.hostq = w :: q → decode (.hc w) = .ok i →
    step s = exec i { turnTaken s with hostq := q }

/-- A step runs the decoded channel row: in `TX` the request that opens with the start byte, in `RX_STATUS` the row of
the status byte at the head of `ch.in`, that byte being taken. -/
def Obligations.StepRunsTheChannelRow : Prop :=
  (∀ (s : State) (i : Instr), blockNext s → s.phase = .tx → decode (.req Config.envStart) = .ok i →
    step s = exec i (turnTaken s)) ∧
  (∀ (s : State) (b : Byte) (rest : List Byte) (i : Instr),
    blockNext s → s.phase = .rxStatus → s.chIn = b :: rest → decode (.rsp b) = .ok i →
    step s = exec i { turnTaken s with chIn := rest })

/-- A host word that is no instruction is answered `BADOP` or `BADARG`; beside the answer only the word and the turn are
gone. -/
def Obligations.StepRefusesOtherWords : Prop :=
  ∀ (s : State) (w : HostWord) (q : List HostWord), blockNext s → s.phase = .idle → s.hostq = w :: q →
    (decode (.hc w) = .error .badOp →
      step s = .next { s with turns := s.turns.tail, hostq := q, answer := some ⟨.badOp, []⟩ }) ∧
    (decode (.hc w) = .error .badArg →
      step s = .next { s with turns := s.turns.tail, hostq := q, answer := some ⟨.badArg, []⟩ })

/-- The other agents touch only what R22, R40 and R114 give them: the peer the tail of `ch.in` and the head of
`ch.outq`, the host the words it presents; and an idle block with no word presented changes nothing (the schedule and
the idle turn are the model's choice, log 1 and 2). -/
def Obligations.OtherAgentsTouchTheirQueuesOnly : Prop :=
  ∀ (s : State) (ts : List Turn),
    (∀ b, s.turns = .peerSend b :: ts → step s = .next { s with turns := ts, chIn := s.chIn ++ [b] }) ∧
    (∀ n, s.turns = .peerTake n :: ts → step s = .next { s with turns := ts, chOutq := s.chOutq.drop n }) ∧
    (∀ w, s.turns = .host w :: ts → step s = .next { s with turns := ts, hostq := s.hostq ++ [w] }) ∧
    (blockNext s → s.phase = .idle → s.hostq = [] → step s = .next (turnTaken s))

/-- The schedule (log 1): a step is the block's turn, with the timer silent, when the block's turn is due; the block's
turn with the timer fired, when the timer's turn is due on a waiting read or no agent has a turn left; and the timer acts
at no other time. -/
def Obligations.StepIsTheTurnThatIsDue : Prop :=
  (∀ s : State, s.turns = [] → step s = blockTurn true s) ∧
  (∀ (s : State) (ts : List Turn), s.turns = .block :: ts → step s = blockTurn false { s with turns := ts }) ∧
  (∀ (s : State) (ts : List Turn), s.turns = .timer :: ts →
    ((s.phase = .rxStatus ∨ s.phase = .rxLen) ∧ s.chIn = [] ∨
      s.phase = .rxBody ∧ s.chIn.length < s.rawLen.toNat - 1) →
    step s = blockTurn true { s with turns := ts }) ∧
  (∀ (s : State) (ts : List Turn), s.turns = .timer :: ts →
    (s.phase = .idle ∨ s.phase = .tx ∨ s.phase = .verify ∨ s.phase = .flush ∨
      (s.phase = .rxStatus ∨ s.phase = .rxLen) ∧ s.chIn ≠ [] ∨
      s.phase = .rxBody ∧ s.rawLen.toNat - 1 ≤ s.chIn.length) →
    step s = .next { s with turns := ts })

/-- R31: a read with too few bytes, its timer silent, waits: the block's turn changes nothing. With all its bytes there
it returns them whether or not the timer has fired. -/
def Obligations.ReadsWaitForTheirBytes : Prop :=
  (∀ s : State,
    ((s.phase = .rxStatus ∨ s.phase = .rxLen) ∧ s.chIn = [] ∨
      s.phase = .rxBody ∧ s.chIn.length < s.rawLen.toNat - 1) →
    blockTurn false s = .next s) ∧
  (∀ s : State,
    ((s.phase = .rxStatus ∨ s.phase = .rxLen) ∧ s.chIn ≠ [] ∨
      s.phase = .rxBody ∧ s.rawLen.toNat - 1 ≤ s.chIn.length) →
    blockTurn true s = blockTurn false s)

/-- R140, R141: a hardware reset, in every phase, gives every register its reset value, leaves the channel as it is, and
records no error. Buffer contents are unspecified (R25) and not spoken of. -/
def Obligations.HardwareResetInEveryPhase : Prop :=
  ∀ s : State, resetNext s →
    ∃ t, step s = .next t ∧
      t.crc = 0#16 ∧ t.matchFlag = false ∧ t.txlen = 0#8 ∧ t.dlen = 0#8 ∧ t.rxvalid = false ∧ t.resTag = .none ∧
      t.resCode = 0#8 ∧ t.cause = .none ∧ t.rawStatus = 0#8 ∧ t.rawLen = 0#8 ∧ t.vcrc = 0#16 ∧ t.phase = .idle ∧
      hReady t = true ∧ busy t = false ∧ t.chIn = s.chIn ∧ t.chOutq = s.chOutq ∧ t.chSent = s.chSent

/-- The model's own stops (log 5), in states that R24 and R100 exclude: a meaning applied outside its phase. -/
def Obligations.MeaningsStopOutsideTheirPhase : Prop :=
  (∀ (i : Instr) (s : State), (encode i).format = .hc → s.phase ≠ .idle →
    exec i s = .fault (.outsidePhase .idle)) ∧
  (∀ (i : Instr) (s : State), (encode i).format = .req → s.phase ≠ .tx → exec i s = .fault (.outsidePhase .tx)) ∧
  (∀ (i : Instr) (s : State), (encode i).format = .rsp → s.phase ≠ .rxStatus →
    exec i s = .fault (.outsidePhase .rxStatus))

/-- The model's own stops (log 4), in states that R24 excludes: a read of a buffer byte nothing has written. That `VERIFY`
reads `RXBUF` is the model's choice (log 13). -/
def Obligations.UnwrittenBufferBytesStop : Prop :=
  (∀ s : State, s.phase = .tx → frameOf s = none → exec .req s = .fault .txbufUnwritten) ∧
  (∀ (s : State) (i : Byte), s.phase = .idle → s.rxvalid = true → i.toNat < s.dlen.toNat →
    Memory.read s.rxbuf i.toNat = none → exec (.rxbRd i) s = .fault .rxbufUnwritten) ∧
  (∀ (e : Bool) (s : State), s.phase = .verify → bodyOf s = none → blockTurn e s = .fault .rxbufUnwritten)

/-! ## The CRC unit -/

/-- R65: the bit step in unsigned arithmetic on 16-bit values: the doubled register without bit 16, with the polynomial
where the data bit differs from the top bit as it was before the shift. -/
def Obligations.CrcBitIsTheStatedStep : Prop :=
  ∀ (c : Crc) (d : Bool),
    (crcBit c d).toNat =
      if d = decide (0x8000 ≤ c.toNat) then (2 * c.toNat) % 65536 else ((2 * c.toNat) % 65536) ^^^ 0x8005

/-- R73 item 4: the byte step and the CRC of sequences of equal length are linear over exclusive or. -/
def Obligations.CrcIsLinear : Prop :=
  (∀ (c₁ c₂ : Crc) (b₁ b₂ : Byte), crcByte (c₁ ^^^ c₂) (b₁ ^^^ b₂) = crcByte c₁ b₁ ^^^ crcByte c₂ b₂) ∧
  (∀ a b : List Byte, a.length = b.length → crc16 (List.zipWith (· ^^^ ·) a b) = crc16 a ^^^ crc16 b)

/-- R73 item 6: flipping any one bit of a sequence changes its CRC, and a single 1 bit among zeros never gives 0. -/
def Obligations.OneFlippedBitChangesTheCrc : Prop :=
  (∀ (u v : List Byte) (b : Byte) (k : Nat), k < 8 →
    crc16 (u ++ [b ^^^ (1#8 <<< k)] ++ v) ≠ crc16 (u ++ [b] ++ v)) ∧
  (∀ m n k : Nat, k < 8 → crc16 (List.replicate m 0#8 ++ [1#8 <<< k] ++ List.replicate n 0#8) ≠ 0#16)

/-- R73 item 3: zero stays zero, and leading zero bytes do not change a CRC. -/
def Obligations.ZeroBytesInFrontAreInvisible : Prop :=
  (∀ n : Nat, crc16 (List.replicate n 0#8) = 0#16) ∧
  (∀ (n : Nat) (s : List Byte), crc16 (List.replicate n 0#8 ++ s) = crc16 s)

/-- R73 item 8 with R66 to R68: the CRC of a sequence is the register the bit steps leave, bit 0 of each byte first, from
a register of 0; in a sequence with its own CRC behind it the two trailing bytes, joined low byte first, are the CRC of the
bytes before them, and the recomputed CRC is emitted as those two bytes (the source's property). -/
def Obligations.CrcIsSelfConsistent : Prop :=
  crc16 [] = 0#16 ∧
  (∀ (s : List Byte) (b : Byte),
    crc16 (s ++ [b]) =
      crcBit (crcBit (crcBit (crcBit (crcBit (crcBit (crcBit (crcBit (crc16 s) (b.getLsbD 0)) (b.getLsbD 1)) (b.getLsbD 2))
        (b.getLsbD 3)) (b.getLsbD 4)) (b.getLsbD 5)) (b.getLsbD 6)) (b.getLsbD 7)) ∧
  (∀ s t : List Byte, t = s ++ crcEmit (crc16 s) →
    crcEmit (crc16 (t.take s.length)) = t.drop s.length ∧
      ∃ lo hi : Byte, t.drop s.length = [lo, hi] ∧ joinBytes lo hi = crc16 s ∧
        lo.toNat + 256 * hi.toNat = (crc16 s).toNat)

/-- R69: `CRC.CLR`. -/
def Obligations.CrcClrClearsTheRegister : Prop :=
  decode (.hc 0x010000#24) = .ok .crcClr ∧
  (∀ (arg : Crc) (s : State), arg ≠ 0#16 →
    acceptWord (hostWord 0x01#8 arg) s = .next { s with answer := some ⟨.badArg, []⟩ }) ∧
  (∀ s : State, s.phase = .idle → exec .crcClr s = .next { s with crc := 0#16, answer := some ⟨.done, []⟩ })

/-- R70: `CRC.UPD b`. -/
def Obligations.CrcUpdFoldsOneByte : Prop :=
  (∀ b : Byte, decode (.hc (hostWord 0x02#8 (joinBytes b 0#8))) = .ok (.crcUpd b)) ∧
  (∀ (arg : Crc) (s : State), highByte arg ≠ 0#8 →
    acceptWord (hostWord 0x02#8 arg) s = .next { s with answer := some ⟨.badArg, []⟩ }) ∧
  (∀ (b : Byte) (s : State), s.phase = .idle →
    exec (.crcUpd b) s = .next { s with crc := crcByte s.crc b, answer := some ⟨.done, []⟩ }) ∧
  crcByte 0#16 0#8 = 0#16 ∧ crcByte 0x0000#16 0x04#8 = 0x80C3#16 ∧ crcByte 0x80C3#16 0x11#8 = 0x4333#16

/-- R71: `CRC.EMIT`. -/
def Obligations.CrcEmitReturnsLowThenHigh : Prop :=
  decode (.hc 0x030000#24) = .ok .crcEmit ∧
  (∀ (arg : Crc) (s : State), arg ≠ 0#16 →
    acceptWord (hostWord 0x03#8 arg) s = .next { s with answer := some ⟨.badArg, []⟩ }) ∧
  (∀ s : State, s.phase = .idle →
    exec .crcEmit s =
      .next { s with answer := some ⟨.done, [BitVec.ofNat 8 (s.crc.toNat % 256), BitVec.ofNat 8 (s.crc.toNat / 256)]⟩ })

/-- R72: `CRC.VFY w`, for every `w`; given as bytes, `w = lo | (hi << 8)`; with the bytes swapped it is another value
unless they are equal. -/
def Obligations.CrcVfySetsMatch : Prop :=
  (∀ w : Crc, decode (.hc (hostWord 0x04#8 w)) = .ok (.crcVfy w)) ∧
  (∀ (w : Crc) (s : State), s.phase = .idle →
    exec (.crcVfy w) s = .next { s with matchFlag := decide (s.crc = w), answer := some ⟨.done, []⟩ }) ∧
  (∀ lo hi : Byte, (joinBytes lo hi).toNat = lo.toNat + 256 * hi.toNat) ∧
  (∀ lo hi : Byte, joinBytes lo hi = joinBytes hi lo ↔ lo = hi)

/-- R59, first row: the pseudo-operation `CRC16 s`, for a sequence of any length, returns the two bytes of `crc16 s` low
byte first and leaves it in `CRC`; nothing else changes. -/
def Obligations.PseudoCrc16ReturnsTheCrc : Prop :=
  ∀ (bytes : List Byte) (s : State), s.phase = .idle →
    execAll (pseudoCrc16 bytes) s =
      .next { s with crc := crc16 bytes, answer := some ⟨.done, [lowByte (crc16 bytes), highByte (crc16 bytes)]⟩ }

/-- R59, third row: after the pseudo-operation `CHECK s, lo, hi` bit 0 of the byte returned says whether the sequence
carries the CRC bytes `lo`, `hi`; beside `CRC` and `MATCH` nothing changes. -/
def Obligations.PseudoCheckComparesTheCrc : Prop :=
  ∀ (bytes : List Byte) (lo hi : Byte) (s : State), s.phase = .idle →
    ∃ v : Byte,
      execAll (pseudoCheck bytes lo hi) s =
        .next { s with
          crc := crc16 bytes, matchFlag := decide ([lo, hi] = crcEmit (crc16 bytes)), answer := some ⟨.done, [v]⟩ } ∧
      v.getLsbD 0 = decide ([lo, hi] = crcEmit (crc16 bytes)) ∧ v.getLsbD 1 = s.rxvalid

/-! ## The frame buffer -/

/-- R80: `TXB.CLR`. -/
def Obligations.TxbClrEmptiesTheFrame : Prop :=
  decode (.hc 0x100000#24) = .ok .txbClr ∧
  (∀ (arg : Crc) (s : State), arg ≠ 0#16 →
    acceptWord (hostWord 0x10#8 arg) s = .next { s with answer := some ⟨.badArg, []⟩ }) ∧
  (∀ s : State, s.phase = .idle → exec .txbClr s = .next { s with txlen := 0#8, answer := some ⟨.done, []⟩ })

/-- R81: `TXB.PUSH b` appends the byte at index `TXLEN`, every other byte of `TXBUF` reading as before, or is refused
with `TXFULL` on a full buffer. -/
def Obligations.TxbPushAppendsOrIsRefused : Prop :=
  (∀ b : Byte, decode (.hc (hostWord 0x11#8 (joinBytes b 0#8))) = .ok (.txbPush b)) ∧
  (∀ (arg : Crc) (s : State), highByte arg ≠ 0#8 →
    acceptWord (hostWord 0x11#8 arg) s = .next { s with answer := some ⟨.badArg, []⟩ }) ∧
  (∀ (b : Byte) (s : State), s.phase = .idle → s.txlen = 255#8 →
    exec (.txbPush b) s = .next { s with answer := some ⟨.txFull, []⟩ }) ∧
  (∀ (b : Byte) (s : State), s.phase = .idle → s.txlen ≠ 255#8 →
    ∃ m : Memory,
      exec (.txbPush b) s =
        .next { s with txbuf := m, txlen := BitVec.ofNat 8 (s.txlen.toNat + 1), answer := some ⟨.done, []⟩ } ∧
      Memory.read m s.txlen.toNat = some b ∧
      ∀ a, a ≠ s.txlen.toNat → Memory.read m a = Memory.read s.txbuf a)

/-- The host's way to a frame (R59, second row): `TXB.CLR`, then one `TXB.PUSH` per byte. For every frame of at most
255 bytes the buffer then holds exactly it, and beside the buffer, its length and the answer nothing has changed. -/
def Obligations.PushedFrameIsTheFrame : Prop :=
  ∀ (f : List Byte) (s : State), s.phase = .idle → f.length ≤ 255 →
    ∃ m : Memory,
      execAll ([.txbClr] ++ f.map .txbPush) s =
        .next { s with txbuf := m, txlen := BitVec.ofNat 8 f.length, answer := some ⟨.done, []⟩ } ∧
      Memory.readRange m 0 f.length = some f

/-! ## The exchange -/

/-- R82: the admission check of `XFER.EXEC`. -/
def Obligations.XferExecAdmitsFiveTo254Bytes : Prop :=
  decode (.hc 0x200000#24) = .ok .xferExec ∧
  (∀ (arg : Crc) (s : State), arg ≠ 0#16 →
    acceptWord (hostWord 0x20#8 arg) s = .next { s with answer := some ⟨.badArg, []⟩ }) ∧
  (∀ s : State, s.phase = .idle → s.txlen.toNat < 5 →
    exec .xferExec s = .next { s with answer := some ⟨.frameShort, []⟩ }) ∧
  (∀ s : State, s.phase = .idle → s.txlen.toNat + 1 > 255 →
    exec .xferExec s = .next { s with answer := some ⟨.frameLong, []⟩ }) ∧
  (∀ s : State, s.phase = .idle → 5 ≤ s.txlen.toNat → s.txlen.toNat ≤ 254 →
    ∃ t, exec .xferExec s = .next t ∧ t.phase = .tx)

/-- R91: the start of an admitted exchange, and no other state of the block or of the channel changes. What the host
port's answer becomes is left open here: that `h_done` goes low is the model's reading (log 3). -/
def Obligations.XferExecStartClearsTheLastResult : Prop :=
  ∀ s : State, s.phase = .idle → 5 ≤ s.txlen.toNat → s.txlen.toNat ≤ 254 →
    ∃ a : Option Answer,
      exec .xferExec s =
        .next { s with
          rxvalid := false, dlen := 0#8, resTag := .none, resCode := 0#8, cause := .none, rawStatus := 0#8,
          rawLen := 0#8, vcrc := 0#16, phase := .tx, answer := a }

/-- R83: the transmit phase writes the envelope in one piece and changes nothing else. -/
def Obligations.ReqSendsTheEnvelope : Prop :=
  ∀ (s : State) (f : List Byte), s.phase = .tx → Memory.readRange s.txbuf 0 s.txlen.toNat = some f →
    exec .req s =
      .next { s with
        chOutq := s.chOutq ++ ([0xFD#8, s.txlen] ++ f), chSent := s.chSent ++ ([0xFD#8, s.txlen] ++ f),
        phase := .rxStatus }

/-- The ten status rows complete, each with its own effect (R93): the byte is recorded; 0 goes on, 1, 2 and 3 are the
chip's errors, every value of the other six rows is a local failure. -/
def Obligations.StatusRowsComplete : Prop :=
  ∀ s : State, s.phase = .rxStatus →
    exec .stOk s = .next { s with rawStatus := 0#8, phase := .rxLen } ∧
    exec .stRecv s =
      .next { s with
        rawStatus := 1#8, resTag := .receiveError, resCode := 1#8, cause := .statusNonzero, phase := .idle,
        answer := some ⟨.done, []⟩ } ∧
    exec .stParam s =
      .next { s with
        rawStatus := 2#8, resTag := .paramError, resCode := 2#8, cause := .statusNonzero, phase := .idle,
        answer := some ⟨.done, []⟩ } ∧
    exec .stExec s =
      .next { s with
        rawStatus := 3#8, resTag := .executeError, resCode := 3#8, cause := .statusNonzero, phase := .idle,
        answer := some ⟨.done, []⟩ } ∧
    (∀ (i : Instr) (b : Byte),
      ((∃ ss : BitVec 2, i = .stUnknown04 ss ∧ b.toNat = 0x04 + ss.toNat) ∨
        (∃ ss : BitVec 3, i = .stUnknown08 ss ∧ b.toNat = 0x08 + ss.toNat) ∨
        (∃ ss : BitVec 4, i = .stUnknown10 ss ∧ b.toNat = 0x10 + ss.toNat) ∨
        (∃ ss : BitVec 5, i = .stUnknown20 ss ∧ b.toNat = 0x20 + ss.toNat) ∨
        (∃ ss : BitVec 6, i = .stUnknown40 ss ∧ b.toNat = 0x40 + ss.toNat) ∨
        (∃ ss : BitVec 7, i = .stUnknown80 ss ∧ b.toNat = 0x80 + ss.toNat)) →
      exec i s =
        .next { s with
          rawStatus := b, resTag := .communicationError, resCode := 99#8, cause := .statusUnknown, phase := .idle,
          answer := some ⟨.done, []⟩ })

/-- R92, R93: phase `RX_STATUS`. With no byte and the timer, the exchange fails with `STATUS_TIMEOUT`; with a byte at the
head of `ch.in`, that byte is taken, recorded and classified, and nothing more is read or flushed. -/
def Obligations.StatusPhaseClassifiesTheByte : Prop :=
  (∀ s : State, s.phase = .rxStatus → s.chIn = [] →
    blockTurn true s =
      .next { s with
        resTag := .communicationError, resCode := 99#8, cause := .statusTimeout, phase := .idle,
        answer := some ⟨.done, []⟩ }) ∧
  (∀ (e : Bool) (s : State) (b : Byte) (rest : List Byte), s.phase = .rxStatus → s.chIn = b :: rest →
    blockTurn e s =
      .next
        (if b = 0#8 then
          { s with chIn := rest, rawStatus := b, phase := .rxLen }
        else
          { s with
            chIn := rest, rawStatus := b, phase := .idle, answer := some ⟨.done, []⟩,
            resTag :=
              if b = 1#8 then .receiveError
              else if b = 2#8 then .paramError
              else if b = 3#8 then .executeError
              else .communicationError,
            resCode := if b.toNat ≤ 3 then b else 99#8,
            cause := if b.toNat ≤ 3 then .statusNonzero else .statusUnknown }))

/-- R94, R95: phase `RX_LEN`. -/
def Obligations.LengthPhaseChecksTheLengthByte : Prop :=
  (∀ s : State, s.phase = .rxLen → s.chIn = [] →
    blockTurn true s =
      .next { s with
        resTag := .communicationError, resCode := 99#8, cause := .lenTimeout, phase := .idle,
        answer := some ⟨.done, []⟩ }) ∧
  (∀ (e : Bool) (s : State) (l : Byte) (rest : List Byte), s.phase = .rxLen → s.chIn = l :: rest →
    blockTurn e s =
      .next
        (if l.toNat < 3 then
          { s with
            chIn := rest, rawLen := l, resTag := .communicationError, resCode := 99#8,
            cause := .lenBad, phase := .idle, answer := some ⟨.done, []⟩ }
        else { s with chIn := rest, rawLen := l, phase := .rxBody }))

/-- R96: phase `RX_BODY`. The bytes that arrived are stored from index 0 on and taken from `ch.in`, every other byte of
`RXBUF` reading as before; a short body fails; never more than `L − 1` bytes are taken. -/
def Obligations.BodyPhaseReadsExactlyTheBody : Prop :=
  (∀ s : State, s.phase = .rxBody → s.chIn.length < s.rawLen.toNat - 1 →
    ∃ m : Memory,
      blockTurn true s =
        .next { s with
          chIn := [], rxbuf := m, resTag := .communicationError, resCode := 99#8,
          cause := .bodyShort, phase := .idle, answer := some ⟨.done, []⟩ } ∧
      (∀ i < s.chIn.length, Memory.read m i = s.chIn[i]?) ∧
      (∀ i, s.chIn.length ≤ i → Memory.read m i = Memory.read s.rxbuf i)) ∧
  (∀ (e : Bool) (s : State), s.phase = .rxBody → s.rawLen.toNat - 1 ≤ s.chIn.length →
    ∃ m : Memory,
      blockTurn e s =
        .next { s with
          chIn := s.chIn.drop (s.rawLen.toNat - 1), rxbuf := m, phase := .verify } ∧
      Memory.readRange m 0 (s.rawLen.toNat - 1) = some (s.chIn.take (s.rawLen.toNat - 1)) ∧
      (∀ i, s.rawLen.toNat - 1 ≤ i → Memory.read m i = Memory.read s.rxbuf i))

/-- R97, R50: phase `VERIFY`. The CRC is recomputed over the length byte and the data, stored in `VCRC`, and compared
with the two trailing bytes, both of them, low byte first. That the body is read back from `RXBUF` is the model's choice
(log 13). -/
def Obligations.VerifyPhaseComparesBothBytes : Prop :=
  ∀ (e : Bool) (s : State) (d : List Byte) (lo hi : Byte), s.phase = .verify → s.rawLen.toNat = d.length + 3 →
    Memory.readRange s.rxbuf 0 (s.rawLen.toNat - 1) = some (d ++ [lo, hi]) →
    blockTurn e s =
      .next
        (if lo = lowByte (crc16 (s.rawLen :: d)) ∧ hi = highByte (crc16 (s.rawLen :: d)) then
          { s with vcrc := crc16 (s.rawLen :: d), phase := .flush }
        else
          { s with
            vcrc := crc16 (s.rawLen :: d), resTag := .communicationError, resCode := 99#8,
            cause := .crcMismatch, phase := .idle, answer := some ⟨.done, []⟩ })

/-- R98: phase `FLUSH` and successful completion. -/
def Obligations.FlushPhaseCompletes : Prop :=
  ∀ (e : Bool) (s : State), s.phase = .flush → 3 ≤ s.rawLen.toNat →
    blockTurn e s =
      .next { s with
        chIn := [], chOutq := [], dlen := BitVec.ofNat 8 (s.rawLen.toNat - 3), rxvalid := true,
        resTag := .ok, resCode := 0#8, phase := .idle, answer := some ⟨.done, []⟩ }

/-- R102: `RXB.RD i`. -/
def Obligations.RxbRdReturnsDataOnly : Prop :=
  (∀ i : Byte, decode (.hc (hostWord 0x21#8 (joinBytes i 0#8))) = .ok (.rxbRd i)) ∧
  (∀ (arg : Crc) (s : State), highByte arg ≠ 0#8 →
    acceptWord (hostWord 0x21#8 arg) s = .next { s with answer := some ⟨.badArg, []⟩ }) ∧
  (∀ (i : Byte) (s : State), s.phase = .idle → (s.rxvalid = false ∨ s.dlen.toNat ≤ i.toNat) →
    exec (.rxbRd i) s = .next { s with answer := some ⟨.rxIndex, []⟩ }) ∧
  (∀ (i b : Byte) (s : State), s.phase = .idle → s.rxvalid = true → i.toNat < s.dlen.toNat →
    Memory.read s.rxbuf i.toNat = some b →
    exec (.rxbRd i) s = .next { s with answer := some ⟨.done, [b]⟩ })

/-- R103: `XFER.FLUSH`. -/
def Obligations.XferFlushEmptiesBothQueues : Prop :=
  decode (.hc 0x220000#24) = .ok .xferFlush ∧
  (∀ (arg : Crc) (s : State), arg ≠ 0#16 →
    acceptWord (hostWord 0x22#8 arg) s = .next { s with answer := some ⟨.badArg, []⟩ }) ∧
  (∀ s : State, s.phase = .idle →
    exec .xferFlush s = .next { s with chIn := [], chOutq := [], answer := some ⟨.done, []⟩ })

/-- R90: run step by step, an admitted exchange computes what the pseudocode of R90 as one piece computes, for every
frame and every content of `ch.in`, in at most seven steps (R100). The peer has sent what it sends and the timer ends a
read that waits (an empty schedule, log 1); no further host word is presented. That phase `TX` is always one step rests on
`ChWrite` always completing (log 9). -/
def Obligations.SevenStepsAreThePseudocode : Prop :=
  ∀ (s : State) (w : HostWord) (f : List Byte),
    s.turns = [] → s.phase = .idle → s.hostq = [w] → decode (.hc w) = .ok .xferExec →
    5 ≤ s.txlen.toNat → s.txlen.toNat ≤ 254 → frameOf s = some f →
    Host.Core.run Sys2Proof.core 7 s = .next (exchange f { s with hostq := [] })

/-- The pseudocode of R90 ends with `Ok` exactly when what the peer sent begins with a well-formed response (R48) to
some data, and then that data, and nothing else, is what the host can read; both directions of the channel are empty. -/
def Obligations.OkExactlyForAWellFormedResponse : Prop :=
  (∀ (f : List Byte) (s : State),
    (exchange f s).resTag = .ok ↔ ∃ d rest : List Byte, d.length ≤ 252 ∧ s.chIn = goodResponse d ++ rest) ∧
  (∀ (f d rest : List Byte) (s : State), d.length ≤ 252 → s.chIn = goodResponse d ++ rest →
    (exchange f s).rxvalid = true ∧ (exchange f s).dlen = BitVec.ofNat 8 d.length ∧
      Memory.readRange (exchange f s).rxbuf 0 d.length = some d ∧
      (exchange f s).chIn = [] ∧ (exchange f s).chOutq = [])

/-- R42, R105: from every state of a running exchange, whatever the other agents' turns are, the block is idle again
after at most as many steps as there are turns, and six more. That the timer ends a waiting read once no turn is left is
the model's form of R42's fairness (log 1); that the exchange leaves `TX` rests on `ChWrite` always completing (log 9). -/
def Obligations.EveryExchangeEnds : Prop :=
  ∀ s : State, Inv s → s.phase ≠ .idle →
    ∃ k t, k ≤ s.turns.length + 6 ∧ Host.Core.run Sys2Proof.core k s = .next t ∧ t.phase = .idle

/-- R120, R121: a step that ends an exchange, but for a reset, ends it in success or in one of the nine rows of the
table of causes, under that row's condition. -/
def Obligations.ExchangesEndInOneRowOfTheCauses : Prop :=
  ∀ s t : State, Inv s → s.phase ≠ .idle → ¬ resetNext s → step s = .next t → t.phase = .idle →
    (s.phase = .flush ∧ t.resTag = .ok ∧ t.resCode = 0#8 ∧ t.cause = .none ∧ t.rxvalid = true) ∨
    (t.rxvalid = false ∧ t.dlen = 0#8 ∧
      ((s.phase = .rxStatus ∧ s.chIn = [] ∧ t.resTag = .communicationError ∧ t.resCode = 99#8 ∧
          t.cause = .statusTimeout) ∨
        (s.phase = .rxStatus ∧ s.chIn.head? = some 1#8 ∧ t.resTag = .receiveError ∧ t.resCode = 1#8 ∧
          t.cause = .statusNonzero) ∨
        (s.phase = .rxStatus ∧ s.chIn.head? = some 2#8 ∧ t.resTag = .paramError ∧ t.resCode = 2#8 ∧
          t.cause = .statusNonzero) ∨
        (s.phase = .rxStatus ∧ s.chIn.head? = some 3#8 ∧ t.resTag = .executeError ∧ t.resCode = 3#8 ∧
          t.cause = .statusNonzero) ∨
        (s.phase = .rxStatus ∧ (∃ b, s.chIn.head? = some b ∧ 4 ≤ b.toNat) ∧ t.resTag = .communicationError ∧
          t.resCode = 99#8 ∧ t.cause = .statusUnknown) ∨
        (s.phase = .rxLen ∧ s.chIn = [] ∧ t.resTag = .communicationError ∧ t.resCode = 99#8 ∧
          t.cause = .lenTimeout) ∨
        (s.phase = .rxLen ∧ (∃ l, s.chIn.head? = some l ∧ l.toNat < 3) ∧ t.resTag = .communicationError ∧
          t.resCode = 99#8 ∧ t.cause = .lenBad) ∨
        (s.phase = .rxBody ∧ s.chIn.length < s.rawLen.toNat - 1 ∧ t.resTag = .communicationError ∧ t.resCode = 99#8 ∧
          t.cause = .bodyShort) ∨
        (s.phase = .verify ∧ t.resTag = .communicationError ∧ t.resCode = 99#8 ∧ t.cause = .crcMismatch)))

/-! ## The system operations -/

/-- R110: `NOP`. -/
def Obligations.NopChangesNothing : Prop :=
  decode (.hc 0x000000#24) = .ok .nop ∧
  (∀ (arg : Crc) (s : State), arg ≠ 0#16 →
    acceptWord (hostWord 0x00#8 arg) s = .next { s with answer := some ⟨.badArg, []⟩ }) ∧
  (∀ s : State, s.phase = .idle → exec .nop s = .next { s with answer := some ⟨.done, []⟩ })

/-- R111 with the register map R21 and the view `FLAGS` of R20: the value every register number returns. -/
def Obligations.RegRdReturnsTheNumberedRegister : Prop :=
  (∀ r : Byte, decode (.hc (hostWord 0x30#8 (joinBytes r 0#8))) = .ok (.regRd r)) ∧
  (∀ (arg : Crc) (s : State), highByte arg ≠ 0#8 →
    acceptWord (hostWord 0x30#8 arg) s = .next { s with answer := some ⟨.badArg, []⟩ }) ∧
  (∀ (r : Byte) (s : State), s.phase = .idle → 0x0B < r.toNat →
    exec (.regRd r) s = .next { s with answer := some ⟨.badReg, []⟩ }) ∧
  (∀ (r v : Byte) (s : State), s.phase = .idle →
    (r, v.toNat) ∈
      [(0x00#8, s.crc.toNat % 256), (0x01#8, s.crc.toNat / 256),
       (0x02#8, (if s.matchFlag then 1 else 0) + (if s.rxvalid then 2 else 0)), (0x03#8, s.txlen.toNat),
       (0x04#8, s.dlen.toNat), (0x05#8, s.resTag.code.toNat), (0x06#8, s.resCode.toNat), (0x07#8, s.cause.code.toNat),
       (0x08#8, s.rawStatus.toNat), (0x09#8, s.rawLen.toNat), (0x0A#8, s.vcrc.toNat % 256),
       (0x0B#8, s.vcrc.toNat / 256)] →
    exec (.regRd r) s = .next { s with answer := some ⟨.done, [v]⟩ })

/-- The numbers of the enumerated registers and of the acknowledge codes (tables of R15, R16, R19, R55). -/
def Obligations.NumbersOfTheEnumeratedRegisters : Prop :=
  [ResTag.none, .ok, .receiveError, .paramError, .executeError, .communicationError].map (fun x => x.code.toNat) =
    [0, 1, 2, 3, 4, 5] ∧
  [Cause.none, .statusTimeout, .statusNonzero, .statusUnknown, .lenTimeout, .lenBad, .bodyShort, .crcMismatch].map
    (fun x => x.code.toNat) = [0, 1, 2, 3, 4, 5, 6, 7] ∧
  [Phase.idle, .tx, .rxStatus, .rxLen, .rxBody, .verify, .flush].map (fun x => x.code.toNat) = [0, 1, 2, 3, 4, 5, 6] ∧
  [Ack.done, .badOp, .badArg, .txFull, .frameShort, .frameLong, .rxIndex, .badReg].map (fun x => x.code.toNat) =
    [0, 1, 2, 3, 4, 5, 6, 7]

/-- R112 with the values of R25: `SYS.RESET` resets every register of the block and touches no channel queue. Buffer
contents are unspecified (R25): the statement does not say what they become. -/
def Obligations.SysResetGivesTheResetValues : Prop :=
  decode (.hc 0x3F0000#24) = .ok .sysReset ∧
  (∀ (arg : Crc) (s : State), arg ≠ 0#16 →
    acceptWord (hostWord 0x3F#8 arg) s = .next { s with answer := some ⟨.badArg, []⟩ }) ∧
  (∀ s : State, s.phase = .idle →
    ∃ tx rx : Memory,
      exec .sysReset s =
        .next { s with
          crc := 0#16, matchFlag := false, txbuf := tx, txlen := 0#8, rxbuf := rx, dlen := 0#8, rxvalid := false,
          resTag := .none, resCode := 0#8, cause := .none, rawStatus := 0#8, rawLen := 0#8, vcrc := 0#16,
          phase := .idle, answer := some ⟨.done, []⟩ })

/-- R113: an operation that is answered with another code than `DONE` returns nothing and has changed no state, of the
block or of the channel. -/
def Obligations.RefusedOperationsChangeNothing : Prop :=
  ∀ (i : Instr) (s t : State) (a : Answer),
    s.phase = .idle → exec i s = .next t → t.answer = some a → a.ack ≠ .done →
    a.rdata = [] ∧ t = { s with answer := some ⟨a.ack, []⟩ }

/-! ## Invariants and whole-machine rules -/

/-- The invariants of R24 hold right after reset. -/
def Obligations.InvariantsHoldAtReset : Prop := Inv State.reset

/-- The invariants of R24 (with what they need to be kept: the buffers' canonical form, the admitted frame, the phases'
records) are kept by every step of every agent. -/
def Obligations.EveryStepKeepsTheInvariants : Prop :=
  ∀ s t : State, Inv s → step s = .next t → Inv t

/-- R127: no outcome of the block is a model fault. In every state that meets R24 a step of any agent answers a next
state; with the invariance, no run from such a state ever stops. -/
def Obligations.NoStepFaults : Prop :=
  ∀ s : State, Inv s → ∃ t, step s = .next t

/-- R100: in every step but a reset `PHASE` stays or moves as the transition table says. -/
def Obligations.PhaseMovesAsTheTable : Prop :=
  ∀ s t : State, step s = .next t → ¬ resetNext s → t.phase = s.phase ∨ phaseMove s.phase t.phase = true

/-- R114, R38 item 2: while an exchange runs no presented word is accepted; words are taken in the order presented, at
most one in a step, and by the block's own turn in `IDLE` only. A step of the hardware reset is left out: that presented
words survive it is the model's choice (log 2). -/
def Obligations.PresentedWordsAreHeldWhileBusy : Prop :=
  ∀ s t : State, step s = .next t → ¬ resetNext s →
    (s.phase ≠ .idle → t.hostq = s.hostq ∨ ∃ w ts, s.turns = .host w :: ts ∧ t.hostq = s.hostq ++ [w]) ∧
    (s.phase = .idle →
      t.hostq = s.hostq ∨ (∃ w ts, s.turns = .host w :: ts ∧ t.hostq = s.hostq ++ [w]) ∨
        (blockNext s ∧ ∃ w, s.hostq = w :: t.hostq))

/-- R24 item 8, R11, R12: `CRC` changes only in a step that performs `CRC.CLR`, `CRC.UPD`, `SYS.RESET` or the hardware
reset, `MATCH` only in one that performs `CRC.VFY`, `SYS.RESET` or the hardware reset. -/
def Obligations.CrcAndMatchHaveNoOtherWriters : Prop :=
  ∀ s t : State, step s = .next t →
    (t.crc ≠ s.crc →
      resetNext s ∨ acceptsNext s .crcClr ∨ acceptsNext s .sysReset ∨ ∃ b, acceptsNext s (.crcUpd b)) ∧
    (t.matchFlag ≠ s.matchFlag → resetNext s ∨ acceptsNext s .sysReset ∨ ∃ w, acceptsNext s (.crcVfy w))

/-- R24 item 8, R41: the frame changes only in a step that performs `TXB.CLR`, `TXB.PUSH`, `SYS.RESET` or the hardware
reset; so it is stable through an exchange. -/
def Obligations.FrameIsStableThroughAnExchange : Prop :=
  ∀ s t : State, step s = .next t → (t.txbuf ≠ s.txbuf ∨ t.txlen ≠ s.txlen) →
    resetNext s ∨ acceptsNext s .txbClr ∨ acceptsNext s .sysReset ∨ ∃ b, acceptsNext s (.txbPush b)

/-- R84, R104: the log of sent bytes grows in one place only, the step out of phase `TX`, by exactly one envelope of the
frame in the buffer; no step shortens it or sends anything else. -/
def Obligations.OneEnvelopePerExchangeIsSent : Prop :=
  ∀ s t : State, step s = .next t →
    (t.chSent = s.chSent ∧ ¬(s.phase = .tx ∧ t.phase = .rxStatus)) ∨
    (s.phase = .tx ∧ t.phase = .rxStatus ∧
      ∃ f, frameOf s = some f ∧ t.chSent = s.chSent ++ ([0xFD#8, s.txlen] ++ f))

/-- R32, R98, R99, R103: the flush is made in two places only, the successful end of an exchange and `XFER.FLUSH`, and
empties both directions there. In every other step no byte is lost but by its reader: `ch.in` stays, or takes the peer's
byte at its tail, or loses at its head what the read of `RX_STATUS`, `RX_LEN` or `RX_BODY` returns (all there is, where the
read ends short); `ch.outq` stays, or takes what phase `TX` writes at its tail, or loses at its head what the peer takes. -/
def Obligations.FlushHappensInTwoPlacesOnly : Prop :=
  ∀ s t : State, step s = .next t →
    (t.chIn = [] ∧ t.chOutq = [] ∧
      (acceptsNext s .xferFlush ∨ (blockNext s ∧ s.phase = .flush ∧ t.phase = .idle ∧ t.resTag = .ok))) ∨
    ((t.chIn = s.chIn ∨
        (∃ b ts, s.turns = .peerSend b :: ts ∧ t.chIn = s.chIn ++ [b]) ∨
        ((blockNext s ∨ ∃ ts, s.turns = .timer :: ts) ∧ t.phase ≠ s.phase ∧
          (((s.phase = .rxStatus ∨ s.phase = .rxLen) ∧ t.chIn = s.chIn.drop 1) ∨
            (s.phase = .rxBody ∧ t.chIn = s.chIn.drop (s.rawLen.toNat - 1))))) ∧
      (t.chOutq = s.chOutq ∨
        (∃ n ts, s.turns = .peerTake n :: ts ∧ t.chOutq = s.chOutq.drop n) ∨
        (s.phase = .tx ∧ t.phase = .rxStatus ∧ ∃ bytes, t.chOutq = s.chOutq ++ bytes)))

/-- R25, R13, R14: buffer contents that hold no value for the host are unobservable. Two states that differ in such
bytes only, the first meeting R24, take the same step up to such bytes: every register, every answer and every byte on
the channel agree for ever. -/
def Obligations.UnspecifiedBufferBytesAreUnobservable : Prop :=
  ∀ s t s' : State, Inv s → SameVisible s t → step s = .next s' → ∃ t', step t = .next t' ∧ SameVisible s' t'
end

