-- ==== Sys2Proof/Laws/Crc.lean ====
section
/-! SUPPORT. Small laws of the CRC unit's functions and of the two bytes of a 16-bit value. -/

namespace Sys2Proof

@[simp] theorem lowByte_joinBytes (lo hi : Byte) : lowByte (joinBytes lo hi) = lo := by
  ext i h
  have : i < 16 := by omega
  simp [lowByte, joinBytes, h, this]

@[simp] theorem highByte_joinBytes (lo hi : Byte) : highByte (joinBytes lo hi) = hi := by
  ext i h
  have : 8 + i < 16 := by omega
  simp [highByte, joinBytes, h, this]

/-- The two bytes of a value, joined low byte first, are the value (R68: the inverse used on receive). -/
@[simp] theorem joinBytes_bytes (v : Crc) : joinBytes (lowByte v) (highByte v) = v := by
  ext i h
  by_cases h8 : i < 8
  · simp [lowByte, highByte, joinBytes, h, h8]
  · have : 8 + (i - 8) = i := by omega
    have h' : i - 8 < 8 := by omega
    simp [lowByte, highByte, joinBytes, h, h8, this, h', BitVec.getLsbD_eq_getElem]

end Sys2Proof

namespace Sys2Proof.Machine

/-- R73 item 2: a bit step is the shift, with the polynomial where data bit and top bit differ. -/
theorem crcBit_eq (c : Crc) (d : Bool) : crcBit c d = (c <<< 1) ^^^ (if d ≠ c.getLsbD 15 then Config.crcPoly else 0#16) := by
  unfold crcBit
  cases d <;> cases c.getLsbD 15 <;> simp

@[simp] theorem crcFold_nil (c : Crc) : crcFold c [] = c := rfl

@[simp] theorem crcFold_cons (c : Crc) (b : Byte) (s : List Byte) : crcFold c (b :: s) = crcFold (crcByte c b) s := rfl

/-- R73 item 5: folding goes on where it stopped. -/
theorem crcFold_append (c : Crc) (s t : List Byte) : crcFold c (s ++ t) = crcFold (crcFold c s) t := by
  simp [crcFold]

theorem crc16_eq (s : List Byte) : crc16 s = crcFold 0#16 s := rfl

theorem crc16_append (s t : List Byte) : crc16 (s ++ t) = crcFold (crc16 s) t := crcFold_append _ s t

@[simp] theorem crcEmit_length (c : Crc) : (crcEmit c).length = 2 := rfl

theorem crcEmit_injective {c c' : Crc} (h : crcEmit c = crcEmit c') : c = c' := by
  simp only [crcEmit, List.cons.injEq, and_true] at h
  rw [← joinBytes_bytes c, ← joinBytes_bytes c', h.1, h.2]

/-- Received bytes are the emitted CRC exactly when, joined low byte first, they are it (R50). -/
theorem eq_crcEmit_iff (lo hi : Byte) (c : Crc) : [lo, hi] = crcEmit c ↔ joinBytes lo hi = c := by
  constructor
  · intro h
    simp only [crcEmit, List.cons.injEq, and_true] at h
    rw [h.1, h.2, joinBytes_bytes]
  · rintro rfl
    simp [crcEmit]

end Sys2Proof.Machine
end

