-- ==== Sys2Proof/Laws/Decode.lean ====
section
/-! SUPPORT. The fields of the host command word and of the status byte. -/

namespace Sys2Proof

@[simp] theorem opField_hostWord (op : Byte) (arg : Crc) : opField (hostWord op arg) = op := by
  ext i h
  have : 16 + i < 24 := by omega
  simp [opField, hostWord, h, this]

@[simp] theorem argField_hostWord (op : Byte) (arg : Crc) : argField (hostWord op arg) = arg := by
  ext i h
  have : i < 24 := by omega
  simp [argField, hostWord, h, this]

/-- A word is its two fields. -/
@[simp] theorem hostWord_fields (w : HostWord) : hostWord (opField w) (argField w) = w := by
  ext i h
  by_cases h16 : i < 16
  · simp [opField, argField, hostWord, h, h16]
  · have : 16 + (i - 16) = i := by omega
    have h' : i - 16 < 8 := by omega
    simp [opField, argField, hostWord, h, h16, this, h', BitVec.getLsbD_eq_getElem]

@[simp] theorem noArg_zero (i : Instr) : noArg 0#16 i = .ok i := rfl

@[simp] theorem byteArg_joinBytes (b : Byte) (mk : Byte → Instr) : byteArg (joinBytes b 0#8) mk = .ok (mk b) := by
  simp [byteArg]

theorem noArg_eq_ok {arg : Crc} {i j : Instr} : noArg arg i = .ok j ↔ arg = 0#16 ∧ i = j := by
  unfold noArg
  split <;> simp_all

theorem byteArg_eq_ok {arg : Crc} {mk : Byte → Instr} {j : Instr} :
    byteArg arg mk = .ok j ↔ highByte arg = 0#8 ∧ mk (lowByte arg) = j := by
  unfold byteArg
  split <;> simp_all

@[simp] theorem noArg_nonzero {arg : Crc} (i : Instr) (h : arg ≠ 0#16) : noArg arg i = .error .badArg := if_neg h

@[simp] theorem byteArg_nonzero {arg : Crc} (mk : Byte → Instr) (h : highByte arg ≠ 0#8) :
    byteArg arg mk = .error .badArg := if_neg h

/-- An argument word with nothing above its low byte is that byte. -/
theorem joinBytes_of_high_zero {arg : Crc} (h : highByte arg = 0#8) : joinBytes (lowByte arg) 0#8 = arg := by
  rw [← h, joinBytes_bytes]

end Sys2Proof
end

