-- ==== Sys2Proof/Laws/Memory.lean ====
section
/-! SUPPORT. The laws of the byte buffers: read after write, ranges, and that every operation keeps the canonical
form. -/

namespace Sys2Proof.Machine

@[simp] theorem Memory.read_nil (i : Nat) : Memory.read [] i = none := rfl

theorem Memory.read_write (m : Memory) (i j : Nat) (b : Byte) :
    Memory.read (Memory.write m i b) j = if i = j then some b else Memory.read m j := by
  induction m with
  | nil => simp [Memory.write, Memory.read]
  | cons c m ih =>
    obtain ⟨a, x⟩ := c
    simp only [Memory.write]
    split
    · simp [Memory.read]
    · split
      · subst_vars
        simp only [Memory.read]
        split <;> simp_all
      · simp only [Memory.read, ih]
        split <;> split <;> simp_all

@[simp] theorem Memory.read_write_same (m : Memory) (i : Nat) (b : Byte) :
    Memory.read (Memory.write m i b) i = some b := by
  simp [Memory.read_write]

theorem Memory.read_write_other (m : Memory) {i j : Nat} (b : Byte) (h : i ≠ j) :
    Memory.read (Memory.write m i b) j = Memory.read m j := by
  simp [Memory.read_write, h]

/-- What a byte reads after a range has been written. -/
theorem Memory.read_writeRange (m : Memory) (i j : Nat) (bs : List Byte) :
    Memory.read (Memory.writeRange m i bs) j =
      if i ≤ j ∧ j < i + bs.length then bs[j - i]? else Memory.read m j := by
  induction bs generalizing m i with
  | nil => simp [Memory.writeRange]
  | cons b bs ih =>
    simp only [Memory.writeRange, ih, Memory.read_write, List.length_cons]
    by_cases h1 : i = j
    · subst h1; simp
    · by_cases h2 : i + 1 ≤ j ∧ j < i + 1 + bs.length
      · have h3 : i ≤ j ∧ j < i + (bs.length + 1) := by omega
        have h4 : j - i = (j - (i + 1)) + 1 := by omega
        simp [h2, h3, h4]
      · have h3 : ¬(i ≤ j ∧ j < i + (bs.length + 1)) := by omega
        rw [if_neg h2, if_neg h3, if_neg h1]

/-! ## Ranges -/

@[simp] theorem Memory.readRange_zero (m : Memory) (i : Nat) : Memory.readRange m i 0 = some [] := rfl

theorem Memory.readRange_succ (m : Memory) (i n : Nat) :
    Memory.readRange m i (n + 1) =
      (Memory.read m i).bind fun b => (Memory.readRange m (i + 1) n).map (b :: ·) := by
  simp only [Memory.readRange]
  cases Memory.read m i <;> rfl

/-- A range reads as `bs` exactly when it has `n` bytes and each index reads as its element. -/
theorem Memory.readRange_eq_some (m : Memory) (i n : Nat) (bs : List Byte) :
    Memory.readRange m i n = some bs ↔ bs.length = n ∧ ∀ k < n, Memory.read m (i + k) = bs[k]? := by
  induction n generalizing i bs with
  | zero => cases bs <;> simp [Memory.readRange]
  | succ n ih =>
    rw [Memory.readRange_succ]
    cases bs with
    | nil =>
      cases Memory.read m i <;> simp
    | cons b bs =>
      constructor
      · intro h
        cases hr : Memory.read m i with
        | none => simp [hr] at h
        | some c =>
          simp only [hr, Option.bind_some, Option.map_eq_some_iff, List.cons.injEq] at h
          obtain ⟨cs, hcs, rfl, rfl⟩ := h
          obtain ⟨hl, hk⟩ := (ih _ _).1 hcs
          refine ⟨by simp [hl], fun k hk' => ?_⟩
          cases k with
          | zero => simp [hr]
          | succ k =>
            have := hk k (by omega)
            rw [show i + (k + 1) = i + 1 + k by omega, this]
            simp
      · rintro ⟨hl, hk⟩
        have h0 := hk 0 (by omega)
        simp only [Nat.add_zero, List.getElem?_cons_zero] at h0
        have := (ih (i + 1) bs).2 ⟨by simpa using hl, fun k hk' => by
          have := hk (k + 1) (by omega)
          rw [show i + 1 + k = i + (k + 1) by omega, this]
          simp⟩
        simp [h0, this]

theorem Memory.readRange_length {m : Memory} {i n : Nat} {bs : List Byte} (h : Memory.readRange m i n = some bs) :
    bs.length = n := ((Memory.readRange_eq_some m i n bs).1 h).1

/-- A range has a value exactly when each of its indices has. -/
theorem Memory.readRange_isSome (m : Memory) (i n : Nat) :
    (∃ bs, Memory.readRange m i n = some bs) ↔ ∀ k < n, ∃ b, Memory.read m (i + k) = some b := by
  induction n generalizing i with
  | zero => simp
  | succ n ih =>
    constructor
    · rintro ⟨bs, h⟩ k hk
      obtain ⟨hl, hr⟩ := (Memory.readRange_eq_some m i (n + 1) bs).1 h
      exact ⟨bs[k]'(by omega), by rw [hr k hk, List.getElem?_eq_getElem]⟩
    · intro h
      obtain ⟨b, hb⟩ := h 0 (by omega)
      obtain ⟨bs, hbs⟩ := (ih (i + 1)).2 fun k hk => by
        obtain ⟨c, hc⟩ := h (k + 1) (by omega)
        exact ⟨c, by rw [show i + 1 + k = i + (k + 1) by omega, hc]⟩
      rw [Nat.add_zero] at hb
      exact ⟨b :: bs, by simp [Memory.readRange_succ, hb, hbs]⟩

/-- Two buffers that read alike on a range have the same range. -/
theorem Memory.readRange_congr {m m' : Memory} {i n : Nat}
    (h : ∀ k < n, Memory.read m (i + k) = Memory.read m' (i + k)) :
    Memory.readRange m i n = Memory.readRange m' i n := by
  induction n generalizing i with
  | zero => rfl
  | succ n ih =>
    have h0 := h 0 (by omega)
    rw [Nat.add_zero] at h0
    rw [Memory.readRange_succ, Memory.readRange_succ, h0, ih (i := i + 1) fun k hk => by
      have := h (k + 1) (by omega)
      rwa [show i + 1 + k = i + (k + 1) by omega]]

/-- A range just written reads back. -/
theorem Memory.readRange_writeRange (m : Memory) (i : Nat) (bs : List Byte) :
    Memory.readRange (Memory.writeRange m i bs) i bs.length = some bs := by
  rw [Memory.readRange_eq_some]
  refine ⟨rfl, fun k hk => ?_⟩
  rw [Memory.read_writeRange, if_pos ⟨by omega, by omega⟩]
  congr 1
  omega

/-! ## The canonical form -/

@[simp] theorem Memory.wf_nil (cap : Nat) : Memory.wf cap [] = true := rfl

theorem Memory.wfFrom_write {cap lo : Nat} {m : Memory} {i : Nat} (b : Byte) (h : Memory.wfFrom cap lo m = true)
    (hlo : lo ≤ i) (hi : i < cap) : Memory.wfFrom cap lo (Memory.write m i b) = true := by
  induction m generalizing lo with
  | nil => simp [Memory.write, Memory.wfFrom, hlo, hi]
  | cons c m ih =>
    obtain ⟨a, x⟩ := c
    simp only [Memory.wfFrom, Bool.and_eq_true, decide_eq_true_eq] at h
    simp only [Memory.write]
    split
    · simp only [Memory.wfFrom, Bool.and_eq_true, decide_eq_true_eq]
      exact ⟨⟨hlo, hi⟩, ⟨by omega, h.1.2⟩, h.2⟩
    · split
      · subst_vars
        simp only [Memory.wfFrom, Bool.and_eq_true, decide_eq_true_eq]
        exact h
      · simp only [Memory.wfFrom, Bool.and_eq_true, decide_eq_true_eq]
        exact ⟨h.1, ih h.2 (by omega)⟩

/-- A write inside the buffer keeps the canonical form. -/
theorem Memory.wf_write {cap : Nat} {m : Memory} {i : Nat} (b : Byte) (h : Memory.wf cap m = true) (hi : i < cap) :
    Memory.wf cap (Memory.write m i b) = true := Memory.wfFrom_write b h (Nat.zero_le i) hi

/-- A range written inside the buffer keeps the canonical form. -/
theorem Memory.wf_writeRange {cap : Nat} {m : Memory} {i : Nat} {bs : List Byte} (h : Memory.wf cap m = true)
    (hi : i + bs.length ≤ cap) : Memory.wf cap (Memory.writeRange m i bs) = true := by
  induction bs generalizing m i with
  | nil => exact h
  | cons b bs ih =>
    simp only [List.length_cons] at hi
    exact ih (Memory.wf_write b h (by omega)) (by omega)

theorem Memory.wfFrom_read {cap lo : Nat} {m : Memory} (h : Memory.wfFrom cap lo m = true) {i : Nat} (hi : i < lo) :
    Memory.read m i = none := by
  induction m generalizing lo with
  | nil => rfl
  | cons c m ih =>
    obtain ⟨a, x⟩ := c
    simp only [Memory.wfFrom, Bool.and_eq_true, decide_eq_true_eq] at h
    rw [Memory.read, if_neg (by omega)]
    exact ih h.2 (by omega)

/-- No index outside the buffer is listed. -/
theorem Memory.wf_read_ge {cap : Nat} {m : Memory} (h : Memory.wf cap m = true) {i : Nat} (hi : cap ≤ i) :
    Memory.read m i = none := by
  suffices ∀ lo, Memory.wfFrom cap lo m = true → Memory.read m i = none from this 0 h
  clear h
  induction m with
  | nil => intros; rfl
  | cons c m ih =>
    intro lo h
    obtain ⟨a, x⟩ := c
    simp only [Memory.wfFrom, Bool.and_eq_true, decide_eq_true_eq] at h
    rw [Memory.read, if_neg (by omega)]
    exact ih _ h.2

theorem Memory.wfFrom_ext {cap lo : Nat} {m m' : Memory} (h : Memory.wfFrom cap lo m = true)
    (h' : Memory.wfFrom cap lo m' = true) (hr : ∀ i, Memory.read m i = Memory.read m' i) : m = m' := by
  induction m generalizing lo m' with
  | nil =>
    cases m' with
    | nil => rfl
    | cons c m' =>
      have := hr c.1
      simp [Memory.read] at this
  | cons c m ih =>
    obtain ⟨a, x⟩ := c
    simp only [Memory.wfFrom, Bool.and_eq_true, decide_eq_true_eq] at h
    cases m' with
    | nil =>
      have := hr a
      simp [Memory.read] at this
    | cons c' m' =>
      obtain ⟨a', x'⟩ := c'
      simp only [Memory.wfFrom, Bool.and_eq_true, decide_eq_true_eq] at h'
      have ha : a = a' := by
        have h1 := hr a
        have h2 := hr a'
        simp only [Memory.read, if_true] at h1 h2
        rcases Nat.lt_trichotomy a a' with hlt | heq | hgt
        · rw [if_neg (by omega), Memory.wfFrom_read h'.2 (by omega)] at h1
          cases h1
        · exact heq
        · rw [if_neg (by omega), Memory.wfFrom_read h.2 (by omega)] at h2
          cases h2
      subst ha
      have hx : x = x' := by
        have h1 := hr a
        simpa [Memory.read] using h1
      subst hx
      have : m = m' := ih h.2 h'.2 fun i => by
        by_cases hi : a = i
        · subst hi
          rw [Memory.wfFrom_read h.2 (by omega), Memory.wfFrom_read h'.2 (by omega)]
        · have := hr i
          simpa [Memory.read, hi] using this
      rw [this]

/-- The form is canonical: buffers in the form that read alike are equal data. -/
theorem Memory.wf_ext {cap : Nat} {m m' : Memory} (h : Memory.wf cap m = true) (h' : Memory.wf cap m' = true)
    (hr : ∀ i, Memory.read m i = Memory.read m' i) : m = m' := Memory.wfFrom_ext h h' hr

theorem State.reset_txbuf_wf : Memory.wf Config.txbufCap State.reset.txbuf = true := rfl

theorem State.reset_rxbuf_wf : Memory.wf Config.rxbufCap State.reset.rxbuf = true := rfl

end Sys2Proof.Machine
end

