-- ==== Sys2Proof/Laws/State.lean ====
section
/-! SUPPORT. What each named update of the state does to each field: one lemma per field per update. -/

namespace Sys2Proof.Machine

/-! ## `answerHost` -/

@[simp] theorem answerHost_crc (ack : Ack) (rdata : List Byte) (s : State) : (answerHost ack rdata s).crc = s.crc := rfl
@[simp] theorem answerHost_matchFlag (ack : Ack) (rdata : List Byte) (s : State) : (answerHost ack rdata s).matchFlag = s.matchFlag := rfl
@[simp] theorem answerHost_txbuf (ack : Ack) (rdata : List Byte) (s : State) : (answerHost ack rdata s).txbuf = s.txbuf := rfl
@[simp] theorem answerHost_txlen (ack : Ack) (rdata : List Byte) (s : State) : (answerHost ack rdata s).txlen = s.txlen := rfl
@[simp] theorem answerHost_rxbuf (ack : Ack) (rdata : List Byte) (s : State) : (answerHost ack rdata s).rxbuf = s.rxbuf := rfl
@[simp] theorem answerHost_dlen (ack : Ack) (rdata : List Byte) (s : State) : (answerHost ack rdata s).dlen = s.dlen := rfl
@[simp] theorem answerHost_rxvalid (ack : Ack) (rdata : List Byte) (s : State) : (answerHost ack rdata s).rxvalid = s.rxvalid := rfl
@[simp] theorem answerHost_resTag (ack : Ack) (rdata : List Byte) (s : State) : (answerHost ack rdata s).resTag = s.resTag := rfl
@[simp] theorem answerHost_resCode (ack : Ack) (rdata : List Byte) (s : State) : (answerHost ack rdata s).resCode = s.resCode := rfl
@[simp] theorem answerHost_cause (ack : Ack) (rdata : List Byte) (s : State) : (answerHost ack rdata s).cause = s.cause := rfl
@[simp] theorem answerHost_rawStatus (ack : Ack) (rdata : List Byte) (s : State) : (answerHost ack rdata s).rawStatus = s.rawStatus := rfl
@[simp] theorem answerHost_rawLen (ack : Ack) (rdata : List Byte) (s : State) : (answerHost ack rdata s).rawLen = s.rawLen := rfl
@[simp] theorem answerHost_vcrc (ack : Ack) (rdata : List Byte) (s : State) : (answerHost ack rdata s).vcrc = s.vcrc := rfl
@[simp] theorem answerHost_phase (ack : Ack) (rdata : List Byte) (s : State) : (answerHost ack rdata s).phase = s.phase := rfl
@[simp] theorem answerHost_chIn (ack : Ack) (rdata : List Byte) (s : State) : (answerHost ack rdata s).chIn = s.chIn := rfl
@[simp] theorem answerHost_chOutq (ack : Ack) (rdata : List Byte) (s : State) : (answerHost ack rdata s).chOutq = s.chOutq := rfl
@[simp] theorem answerHost_chSent (ack : Ack) (rdata : List Byte) (s : State) : (answerHost ack rdata s).chSent = s.chSent := rfl
@[simp] theorem answerHost_hostq (ack : Ack) (rdata : List Byte) (s : State) : (answerHost ack rdata s).hostq = s.hostq := rfl
@[simp] theorem answerHost_answer (ack : Ack) (rdata : List Byte) (s : State) : (answerHost ack rdata s).answer = some { ack := ack, rdata := rdata } := rfl
@[simp] theorem answerHost_turns (ack : Ack) (rdata : List Byte) (s : State) : (answerHost ack rdata s).turns = s.turns := rfl

/-! ## `done` -/

@[simp] theorem done_crc (rdata : List Byte) (s : State) : (done rdata s).crc = s.crc := rfl
@[simp] theorem done_matchFlag (rdata : List Byte) (s : State) : (done rdata s).matchFlag = s.matchFlag := rfl
@[simp] theorem done_txbuf (rdata : List Byte) (s : State) : (done rdata s).txbuf = s.txbuf := rfl
@[simp] theorem done_txlen (rdata : List Byte) (s : State) : (done rdata s).txlen = s.txlen := rfl
@[simp] theorem done_rxbuf (rdata : List Byte) (s : State) : (done rdata s).rxbuf = s.rxbuf := rfl
@[simp] theorem done_dlen (rdata : List Byte) (s : State) : (done rdata s).dlen = s.dlen := rfl
@[simp] theorem done_rxvalid (rdata : List Byte) (s : State) : (done rdata s).rxvalid = s.rxvalid := rfl
@[simp] theorem done_resTag (rdata : List Byte) (s : State) : (done rdata s).resTag = s.resTag := rfl
@[simp] theorem done_resCode (rdata : List Byte) (s : State) : (done rdata s).resCode = s.resCode := rfl
@[simp] theorem done_cause (rdata : List Byte) (s : State) : (done rdata s).cause = s.cause := rfl
@[simp] theorem done_rawStatus (rdata : List Byte) (s : State) : (done rdata s).rawStatus = s.rawStatus := rfl
@[simp] theorem done_rawLen (rdata : List Byte) (s : State) : (done rdata s).rawLen = s.rawLen := rfl
@[simp] theorem done_vcrc (rdata : List Byte) (s : State) : (done rdata s).vcrc = s.vcrc := rfl
@[simp] theorem done_phase (rdata : List Byte) (s : State) : (done rdata s).phase = s.phase := rfl
@[simp] theorem done_chIn (rdata : List Byte) (s : State) : (done rdata s).chIn = s.chIn := rfl
@[simp] theorem done_chOutq (rdata : List Byte) (s : State) : (done rdata s).chOutq = s.chOutq := rfl
@[simp] theorem done_chSent (rdata : List Byte) (s : State) : (done rdata s).chSent = s.chSent := rfl
@[simp] theorem done_hostq (rdata : List Byte) (s : State) : (done rdata s).hostq = s.hostq := rfl
@[simp] theorem done_answer (rdata : List Byte) (s : State) : (done rdata s).answer = some { ack := .done, rdata := rdata } := rfl
@[simp] theorem done_turns (rdata : List Byte) (s : State) : (done rdata s).turns = s.turns := rfl

/-! ## `refuse` -/

@[simp] theorem refuse_crc (ack : Ack) (s : State) : (refuse ack s).crc = s.crc := rfl
@[simp] theorem refuse_matchFlag (ack : Ack) (s : State) : (refuse ack s).matchFlag = s.matchFlag := rfl
@[simp] theorem refuse_txbuf (ack : Ack) (s : State) : (refuse ack s).txbuf = s.txbuf := rfl
@[simp] theorem refuse_txlen (ack : Ack) (s : State) : (refuse ack s).txlen = s.txlen := rfl
@[simp] theorem refuse_rxbuf (ack : Ack) (s : State) : (refuse ack s).rxbuf = s.rxbuf := rfl
@[simp] theorem refuse_dlen (ack : Ack) (s : State) : (refuse ack s).dlen = s.dlen := rfl
@[simp] theorem refuse_rxvalid (ack : Ack) (s : State) : (refuse ack s).rxvalid = s.rxvalid := rfl
@[simp] theorem refuse_resTag (ack : Ack) (s : State) : (refuse ack s).resTag = s.resTag := rfl
@[simp] theorem refuse_resCode (ack : Ack) (s : State) : (refuse ack s).resCode = s.resCode := rfl
@[simp] theorem refuse_cause (ack : Ack) (s : State) : (refuse ack s).cause = s.cause := rfl
@[simp] theorem refuse_rawStatus (ack : Ack) (s : State) : (refuse ack s).rawStatus = s.rawStatus := rfl
@[simp] theorem refuse_rawLen (ack : Ack) (s : State) : (refuse ack s).rawLen = s.rawLen := rfl
@[simp] theorem refuse_vcrc (ack : Ack) (s : State) : (refuse ack s).vcrc = s.vcrc := rfl
@[simp] theorem refuse_phase (ack : Ack) (s : State) : (refuse ack s).phase = s.phase := rfl
@[simp] theorem refuse_chIn (ack : Ack) (s : State) : (refuse ack s).chIn = s.chIn := rfl
@[simp] theorem refuse_chOutq (ack : Ack) (s : State) : (refuse ack s).chOutq = s.chOutq := rfl
@[simp] theorem refuse_chSent (ack : Ack) (s : State) : (refuse ack s).chSent = s.chSent := rfl
@[simp] theorem refuse_hostq (ack : Ack) (s : State) : (refuse ack s).hostq = s.hostq := rfl
@[simp] theorem refuse_answer (ack : Ack) (s : State) : (refuse ack s).answer = some { ack := ack, rdata := [] } := rfl
@[simp] theorem refuse_turns (ack : Ack) (s : State) : (refuse ack s).turns = s.turns := rfl

/-! ## `chWrite` -/

@[simp] theorem chWrite_crc (bytes : List Byte) (s : State) : (chWrite bytes s).crc = s.crc := rfl
@[simp] theorem chWrite_matchFlag (bytes : List Byte) (s : State) : (chWrite bytes s).matchFlag = s.matchFlag := rfl
@[simp] theorem chWrite_txbuf (bytes : List Byte) (s : State) : (chWrite bytes s).txbuf = s.txbuf := rfl
@[simp] theorem chWrite_txlen (bytes : List Byte) (s : State) : (chWrite bytes s).txlen = s.txlen := rfl
@[simp] theorem chWrite_rxbuf (bytes : List Byte) (s : State) : (chWrite bytes s).rxbuf = s.rxbuf := rfl
@[simp] theorem chWrite_dlen (bytes : List Byte) (s : State) : (chWrite bytes s).dlen = s.dlen := rfl
@[simp] theorem chWrite_rxvalid (bytes : List Byte) (s : State) : (chWrite bytes s).rxvalid = s.rxvalid := rfl
@[simp] theorem chWrite_resTag (bytes : List Byte) (s : State) : (chWrite bytes s).resTag = s.resTag := rfl
@[simp] theorem chWrite_resCode (bytes : List Byte) (s : State) : (chWrite bytes s).resCode = s.resCode := rfl
@[simp] theorem chWrite_cause (bytes : List Byte) (s : State) : (chWrite bytes s).cause = s.cause := rfl
@[simp] theorem chWrite_rawStatus (bytes : List Byte) (s : State) : (chWrite bytes s).rawStatus = s.rawStatus := rfl
@[simp] theorem chWrite_rawLen (bytes : List Byte) (s : State) : (chWrite bytes s).rawLen = s.rawLen := rfl
@[simp] theorem chWrite_vcrc (bytes : List Byte) (s : State) : (chWrite bytes s).vcrc = s.vcrc := rfl
@[simp] theorem chWrite_phase (bytes : List Byte) (s : State) : (chWrite bytes s).phase = s.phase := rfl
@[simp] theorem chWrite_chIn (bytes : List Byte) (s : State) : (chWrite bytes s).chIn = s.chIn := rfl
@[simp] theorem chWrite_chOutq (bytes : List Byte) (s : State) : (chWrite bytes s).chOutq = s.chOutq ++ bytes := rfl
@[simp] theorem chWrite_chSent (bytes : List Byte) (s : State) : (chWrite bytes s).chSent = s.chSent ++ bytes := rfl
@[simp] theorem chWrite_hostq (bytes : List Byte) (s : State) : (chWrite bytes s).hostq = s.hostq := rfl
@[simp] theorem chWrite_answer (bytes : List Byte) (s : State) : (chWrite bytes s).answer = s.answer := rfl
@[simp] theorem chWrite_turns (bytes : List Byte) (s : State) : (chWrite bytes s).turns = s.turns := rfl

/-! ## `chFlush` -/

@[simp] theorem chFlush_crc (s : State) : (chFlush s).crc = s.crc := rfl
@[simp] theorem chFlush_matchFlag (s : State) : (chFlush s).matchFlag = s.matchFlag := rfl
@[simp] theorem chFlush_txbuf (s : State) : (chFlush s).txbuf = s.txbuf := rfl
@[simp] theorem chFlush_txlen (s : State) : (chFlush s).txlen = s.txlen := rfl
@[simp] theorem chFlush_rxbuf (s : State) : (chFlush s).rxbuf = s.rxbuf := rfl
@[simp] theorem chFlush_dlen (s : State) : (chFlush s).dlen = s.dlen := rfl
@[simp] theorem chFlush_rxvalid (s : State) : (chFlush s).rxvalid = s.rxvalid := rfl
@[simp] theorem chFlush_resTag (s : State) : (chFlush s).resTag = s.resTag := rfl
@[simp] theorem chFlush_resCode (s : State) : (chFlush s).resCode = s.resCode := rfl
@[simp] theorem chFlush_cause (s : State) : (chFlush s).cause = s.cause := rfl
@[simp] theorem chFlush_rawStatus (s : State) : (chFlush s).rawStatus = s.rawStatus := rfl
@[simp] theorem chFlush_rawLen (s : State) : (chFlush s).rawLen = s.rawLen := rfl
@[simp] theorem chFlush_vcrc (s : State) : (chFlush s).vcrc = s.vcrc := rfl
@[simp] theorem chFlush_phase (s : State) : (chFlush s).phase = s.phase := rfl
@[simp] theorem chFlush_chIn (s : State) : (chFlush s).chIn = [] := rfl
@[simp] theorem chFlush_chOutq (s : State) : (chFlush s).chOutq = [] := rfl
@[simp] theorem chFlush_chSent (s : State) : (chFlush s).chSent = s.chSent := rfl
@[simp] theorem chFlush_hostq (s : State) : (chFlush s).hostq = s.hostq := rfl
@[simp] theorem chFlush_answer (s : State) : (chFlush s).answer = s.answer := rfl
@[simp] theorem chFlush_turns (s : State) : (chFlush s).turns = s.turns := rfl

/-! ## `startExchange` -/

@[simp] theorem startExchange_crc (s : State) : (startExchange s).crc = s.crc := rfl
@[simp] theorem startExchange_matchFlag (s : State) : (startExchange s).matchFlag = s.matchFlag := rfl
@[simp] theorem startExchange_txbuf (s : State) : (startExchange s).txbuf = s.txbuf := rfl
@[simp] theorem startExchange_txlen (s : State) : (startExchange s).txlen = s.txlen := rfl
@[simp] theorem startExchange_rxbuf (s : State) : (startExchange s).rxbuf = s.rxbuf := rfl
@[simp] theorem startExchange_dlen (s : State) : (startExchange s).dlen = 0#8 := rfl
@[simp] theorem startExchange_rxvalid (s : State) : (startExchange s).rxvalid = false := rfl
@[simp] theorem startExchange_resTag (s : State) : (startExchange s).resTag = .none := rfl
@[simp] theorem startExchange_resCode (s : State) : (startExchange s).resCode = 0#8 := rfl
@[simp] theorem startExchange_cause (s : State) : (startExchange s).cause = .none := rfl
@[simp] theorem startExchange_rawStatus (s : State) : (startExchange s).rawStatus = 0#8 := rfl
@[simp] theorem startExchange_rawLen (s : State) : (startExchange s).rawLen = 0#8 := rfl
@[simp] theorem startExchange_vcrc (s : State) : (startExchange s).vcrc = 0#16 := rfl
@[simp] theorem startExchange_phase (s : State) : (startExchange s).phase = .tx := rfl
@[simp] theorem startExchange_chIn (s : State) : (startExchange s).chIn = s.chIn := rfl
@[simp] theorem startExchange_chOutq (s : State) : (startExchange s).chOutq = s.chOutq := rfl
@[simp] theorem startExchange_chSent (s : State) : (startExchange s).chSent = s.chSent := rfl
@[simp] theorem startExchange_hostq (s : State) : (startExchange s).hostq = s.hostq := rfl
@[simp] theorem startExchange_answer (s : State) : (startExchange s).answer = none := rfl
@[simp] theorem startExchange_turns (s : State) : (startExchange s).turns = s.turns := rfl

/-! ## `fail` -/

@[simp] theorem fail_crc (tag : ResTag) (code : Byte) (cause : Cause) (s : State) : (fail tag code cause s).crc = s.crc := rfl
@[simp] theorem fail_matchFlag (tag : ResTag) (code : Byte) (cause : Cause) (s : State) : (fail tag code cause s).matchFlag = s.matchFlag := rfl
@[simp] theorem fail_txbuf (tag : ResTag) (code : Byte) (cause : Cause) (s : State) : (fail tag code cause s).txbuf = s.txbuf := rfl
@[simp] theorem fail_txlen (tag : ResTag) (code : Byte) (cause : Cause) (s : State) : (fail tag code cause s).txlen = s.txlen := rfl
@[simp] theorem fail_rxbuf (tag : ResTag) (code : Byte) (cause : Cause) (s : State) : (fail tag code cause s).rxbuf = s.rxbuf := rfl
@[simp] theorem fail_dlen (tag : ResTag) (code : Byte) (cause : Cause) (s : State) : (fail tag code cause s).dlen = s.dlen := rfl
@[simp] theorem fail_rxvalid (tag : ResTag) (code : Byte) (cause : Cause) (s : State) : (fail tag code cause s).rxvalid = s.rxvalid := rfl
@[simp] theorem fail_resTag (tag : ResTag) (code : Byte) (cause : Cause) (s : State) : (fail tag code cause s).resTag = tag := rfl
@[simp] theorem fail_resCode (tag : ResTag) (code : Byte) (cause : Cause) (s : State) : (fail tag code cause s).resCode = code := rfl
@[simp] theorem fail_cause (tag : ResTag) (code : Byte) (cause : Cause) (s : State) : (fail tag code cause s).cause = cause := rfl
@[simp] theorem fail_rawStatus (tag : ResTag) (code : Byte) (cause : Cause) (s : State) : (fail tag code cause s).rawStatus = s.rawStatus := rfl
@[simp] theorem fail_rawLen (tag : ResTag) (code : Byte) (cause : Cause) (s : State) : (fail tag code cause s).rawLen = s.rawLen := rfl
@[simp] theorem fail_vcrc (tag : ResTag) (code : Byte) (cause : Cause) (s : State) : (fail tag code cause s).vcrc = s.vcrc := rfl
@[simp] theorem fail_phase (tag : ResTag) (code : Byte) (cause : Cause) (s : State) : (fail tag code cause s).phase = .idle := rfl
@[simp] theorem fail_chIn (tag : ResTag) (code : Byte) (cause : Cause) (s : State) : (fail tag code cause s).chIn = s.chIn := rfl
@[simp] theorem fail_chOutq (tag : ResTag) (code : Byte) (cause : Cause) (s : State) : (fail tag code cause s).chOutq = s.chOutq := rfl
@[simp] theorem fail_chSent (tag : ResTag) (code : Byte) (cause : Cause) (s : State) : (fail tag code cause s).chSent = s.chSent := rfl
@[simp] theorem fail_hostq (tag : ResTag) (code : Byte) (cause : Cause) (s : State) : (fail tag code cause s).hostq = s.hostq := rfl
@[simp] theorem fail_answer (tag : ResTag) (code : Byte) (cause : Cause) (s : State) : (fail tag code cause s).answer = some { ack := .done, rdata := [] } := rfl
@[simp] theorem fail_turns (tag : ResTag) (code : Byte) (cause : Cause) (s : State) : (fail tag code cause s).turns = s.turns := rfl

/-! ## `failLocal` -/

@[simp] theorem failLocal_crc (cause : Cause) (s : State) : (failLocal cause s).crc = s.crc := rfl
@[simp] theorem failLocal_matchFlag (cause : Cause) (s : State) : (failLocal cause s).matchFlag = s.matchFlag := rfl
@[simp] theorem failLocal_txbuf (cause : Cause) (s : State) : (failLocal cause s).txbuf = s.txbuf := rfl
@[simp] theorem failLocal_txlen (cause : Cause) (s : State) : (failLocal cause s).txlen = s.txlen := rfl
@[simp] theorem failLocal_rxbuf (cause : Cause) (s : State) : (failLocal cause s).rxbuf = s.rxbuf := rfl
@[simp] theorem failLocal_dlen (cause : Cause) (s : State) : (failLocal cause s).dlen = s.dlen := rfl
@[simp] theorem failLocal_rxvalid (cause : Cause) (s : State) : (failLocal cause s).rxvalid = s.rxvalid := rfl
@[simp] theorem failLocal_resTag (cause : Cause) (s : State) : (failLocal cause s).resTag = .communicationError := rfl
@[simp] theorem failLocal_resCode (cause : Cause) (s : State) : (failLocal cause s).resCode = 99#8 := rfl
@[simp] theorem failLocal_cause (cause : Cause) (s : State) : (failLocal cause s).cause = cause := rfl
@[simp] theorem failLocal_rawStatus (cause : Cause) (s : State) : (failLocal cause s).rawStatus = s.rawStatus := rfl
@[simp] theorem failLocal_rawLen (cause : Cause) (s : State) : (failLocal cause s).rawLen = s.rawLen := rfl
@[simp] theorem failLocal_vcrc (cause : Cause) (s : State) : (failLocal cause s).vcrc = s.vcrc := rfl
@[simp] theorem failLocal_phase (cause : Cause) (s : State) : (failLocal cause s).phase = .idle := rfl
@[simp] theorem failLocal_chIn (cause : Cause) (s : State) : (failLocal cause s).chIn = s.chIn := rfl
@[simp] theorem failLocal_chOutq (cause : Cause) (s : State) : (failLocal cause s).chOutq = s.chOutq := rfl
@[simp] theorem failLocal_chSent (cause : Cause) (s : State) : (failLocal cause s).chSent = s.chSent := rfl
@[simp] theorem failLocal_hostq (cause : Cause) (s : State) : (failLocal cause s).hostq = s.hostq := rfl
@[simp] theorem failLocal_answer (cause : Cause) (s : State) : (failLocal cause s).answer = some { ack := .done, rdata := [] } := rfl
@[simp] theorem failLocal_turns (cause : Cause) (s : State) : (failLocal cause s).turns = s.turns := rfl

/-! ## `completeExchange` -/

@[simp] theorem completeExchange_crc (s : State) : (completeExchange s).crc = s.crc := rfl
@[simp] theorem completeExchange_matchFlag (s : State) : (completeExchange s).matchFlag = s.matchFlag := rfl
@[simp] theorem completeExchange_txbuf (s : State) : (completeExchange s).txbuf = s.txbuf := rfl
@[simp] theorem completeExchange_txlen (s : State) : (completeExchange s).txlen = s.txlen := rfl
@[simp] theorem completeExchange_rxbuf (s : State) : (completeExchange s).rxbuf = s.rxbuf := rfl
@[simp] theorem completeExchange_dlen (s : State) : (completeExchange s).dlen = s.rawLen - 3#8 := rfl
@[simp] theorem completeExchange_rxvalid (s : State) : (completeExchange s).rxvalid = true := rfl
@[simp] theorem completeExchange_resTag (s : State) : (completeExchange s).resTag = .ok := rfl
@[simp] theorem completeExchange_resCode (s : State) : (completeExchange s).resCode = 0#8 := rfl
@[simp] theorem completeExchange_cause (s : State) : (completeExchange s).cause = s.cause := rfl
@[simp] theorem completeExchange_rawStatus (s : State) : (completeExchange s).rawStatus = s.rawStatus := rfl
@[simp] theorem completeExchange_rawLen (s : State) : (completeExchange s).rawLen = s.rawLen := rfl
@[simp] theorem completeExchange_vcrc (s : State) : (completeExchange s).vcrc = s.vcrc := rfl
@[simp] theorem completeExchange_phase (s : State) : (completeExchange s).phase = .idle := rfl
@[simp] theorem completeExchange_chIn (s : State) : (completeExchange s).chIn = [] := rfl
@[simp] theorem completeExchange_chOutq (s : State) : (completeExchange s).chOutq = [] := rfl
@[simp] theorem completeExchange_chSent (s : State) : (completeExchange s).chSent = s.chSent := rfl
@[simp] theorem completeExchange_hostq (s : State) : (completeExchange s).hostq = s.hostq := rfl
@[simp] theorem completeExchange_answer (s : State) : (completeExchange s).answer = some { ack := .done, rdata := [] } := rfl
@[simp] theorem completeExchange_turns (s : State) : (completeExchange s).turns = s.turns := rfl

/-! ## `resetBlock` -/

@[simp] theorem resetBlock_crc (s : State) : (resetBlock s).crc = 0#16 := rfl
@[simp] theorem resetBlock_matchFlag (s : State) : (resetBlock s).matchFlag = false := rfl
@[simp] theorem resetBlock_txbuf (s : State) : (resetBlock s).txbuf = [] := rfl
@[simp] theorem resetBlock_txlen (s : State) : (resetBlock s).txlen = 0#8 := rfl
@[simp] theorem resetBlock_rxbuf (s : State) : (resetBlock s).rxbuf = [] := rfl
@[simp] theorem resetBlock_dlen (s : State) : (resetBlock s).dlen = 0#8 := rfl
@[simp] theorem resetBlock_rxvalid (s : State) : (resetBlock s).rxvalid = false := rfl
@[simp] theorem resetBlock_resTag (s : State) : (resetBlock s).resTag = .none := rfl
@[simp] theorem resetBlock_resCode (s : State) : (resetBlock s).resCode = 0#8 := rfl
@[simp] theorem resetBlock_cause (s : State) : (resetBlock s).cause = .none := rfl
@[simp] theorem resetBlock_rawStatus (s : State) : (resetBlock s).rawStatus = 0#8 := rfl
@[simp] theorem resetBlock_rawLen (s : State) : (resetBlock s).rawLen = 0#8 := rfl
@[simp] theorem resetBlock_vcrc (s : State) : (resetBlock s).vcrc = 0#16 := rfl
@[simp] theorem resetBlock_phase (s : State) : (resetBlock s).phase = .idle := rfl
@[simp] theorem resetBlock_chIn (s : State) : (resetBlock s).chIn = s.chIn := rfl
@[simp] theorem resetBlock_chOutq (s : State) : (resetBlock s).chOutq = s.chOutq := rfl
@[simp] theorem resetBlock_chSent (s : State) : (resetBlock s).chSent = s.chSent := rfl
@[simp] theorem resetBlock_hostq (s : State) : (resetBlock s).hostq = s.hostq := rfl
@[simp] theorem resetBlock_answer (s : State) : (resetBlock s).answer = s.answer := rfl
@[simp] theorem resetBlock_turns (s : State) : (resetBlock s).turns = s.turns := rfl

/-! ## `hardReset` -/

@[simp] theorem hardReset_crc (s : State) : (hardReset s).crc = 0#16 := rfl
@[simp] theorem hardReset_matchFlag (s : State) : (hardReset s).matchFlag = false := rfl
@[simp] theorem hardReset_txbuf (s : State) : (hardReset s).txbuf = [] := rfl
@[simp] theorem hardReset_txlen (s : State) : (hardReset s).txlen = 0#8 := rfl
@[simp] theorem hardReset_rxbuf (s : State) : (hardReset s).rxbuf = [] := rfl
@[simp] theorem hardReset_dlen (s : State) : (hardReset s).dlen = 0#8 := rfl
@[simp] theorem hardReset_rxvalid (s : State) : (hardReset s).rxvalid = false := rfl
@[simp] theorem hardReset_resTag (s : State) : (hardReset s).resTag = .none := rfl
@[simp] theorem hardReset_resCode (s : State) : (hardReset s).resCode = 0#8 := rfl
@[simp] theorem hardReset_cause (s : State) : (hardReset s).cause = .none := rfl
@[simp] theorem hardReset_rawStatus (s : State) : (hardReset s).rawStatus = 0#8 := rfl
@[simp] theorem hardReset_rawLen (s : State) : (hardReset s).rawLen = 0#8 := rfl
@[simp] theorem hardReset_vcrc (s : State) : (hardReset s).vcrc = 0#16 := rfl
@[simp] theorem hardReset_phase (s : State) : (hardReset s).phase = .idle := rfl
@[simp] theorem hardReset_chIn (s : State) : (hardReset s).chIn = s.chIn := rfl
@[simp] theorem hardReset_chOutq (s : State) : (hardReset s).chOutq = s.chOutq := rfl
@[simp] theorem hardReset_chSent (s : State) : (hardReset s).chSent = s.chSent := rfl
@[simp] theorem hardReset_hostq (s : State) : (hardReset s).hostq = s.hostq := rfl
@[simp] theorem hardReset_answer (s : State) : (hardReset s).answer = none := rfl
@[simp] theorem hardReset_turns (s : State) : (hardReset s).turns = s.turns := rfl

end Sys2Proof.Machine
end

