-- ==== Sys2Proof/Laws/Ops.lean ====
section
/-! SUPPORT. For each shared operation, once, what it can do. -/

namespace Sys2Proof.Machine

@[simp] theorem atPhase_of {p : Phase} {s : State} (r : Result) (h : s.phase = p) : atPhase p s r = r := if_pos h

theorem atPhase_other {p : Phase} {s : State} (r : Result) (h : s.phase ≠ p) :
    atPhase p s r = .fault (.outsidePhase p) := if_neg h

/-- A meaning that answers a next state was applied in its phase. -/
theorem atPhase_next {p : Phase} {s t : State} {r : Result} : atPhase p s r = .next t ↔ s.phase = p ∧ r = .next t := by
  unfold atPhase
  split <;> simp_all

/-- A read answers when the bytes are there or the timer has fired, with all the bytes there are up to `n`. -/
theorem chRead_some {n : Nat} {expired : Bool} {s t : State} {bs : List Byte} :
    chRead n expired s = some (bs, t) ↔
      (n ≤ s.chIn.length ∨ expired = true) ∧ bs = s.chIn.take n ∧ t = { s with chIn := s.chIn.drop n } := by
  unfold chRead
  split <;> simp_all [eq_comm]

/-- A read waits exactly while bytes are missing and the timer has not fired. -/
theorem chRead_none {n : Nat} {expired : Bool} {s : State} :
    chRead n expired s = none ↔ s.chIn.length < n ∧ expired = false := by
  unfold chRead
  split <;> simp_all
  rename_i h
  intro h'
  rcases h with h | h
  · omega
  · simp [h]

/-- The read of one byte with a byte there. -/
theorem chRead_one_cons {expired : Bool} {s : State} {b : Byte} {rest : List Byte} (h : s.chIn = b :: rest) :
    chRead 1 expired s = some ([b], { s with chIn := rest }) := by
  rw [chRead_some, h]
  simp

/-- The read of one byte with none there, ended by the timer. -/
theorem chRead_one_short {s : State} (h : s.chIn = []) : chRead 1 true s = some ([], { s with chIn := [] }) := by
  rw [chRead_some, h]
  simp

/-- `RXB.RD` may read index `i` exactly when the response is valid and `i` is below `DLEN`. -/
theorem rxReadable_iff {s : State} {i : Byte} : rxReadable s i = true ↔ s.rxvalid = true ∧ i.toNat < s.dlen.toNat := by
  simp [rxReadable]

/-- The reserved register numbers are those above `0x0B`. -/
theorem regRead_none {s : State} {r : Byte} : regRead s r = none ↔ 0x0B < r.toNat := by
  unfold regRead
  split <;> simp_all
  omega

/-- Phase `RX_LEN` waits, times out, refuses a short length byte, or goes on. -/
theorem phaseRxLen_next {expired : Bool} {s t : State} (h : phaseRxLen expired s = .next t) :
    (s.chIn = [] ∧ expired = false ∧ t = s) ∨
    (s.chIn = [] ∧ expired = true ∧ t = failLocal .lenTimeout s) ∨
    (∃ l rest, s.chIn = l :: rest ∧ l.toNat < 3 ∧ t = failLocal .lenBad { s with chIn := rest, rawLen := l }) ∨
    (∃ l rest, s.chIn = l :: rest ∧ 3 ≤ l.toNat ∧ t = { s with chIn := rest, rawLen := l, phase := .rxBody }) := by
  unfold phaseRxLen at h
  cases hin : s.chIn with
  | nil =>
    have hs : { s with chIn := [] } = s := by rw [← hin]
    cases expired with
    | false =>
      rw [chRead_none.2 (by simp [hin])] at h
      exact .inl ⟨rfl, rfl, by simpa using h.symm⟩
    | true =>
      rw [chRead_one_short hin, hs] at h
      exact .inr (.inl ⟨rfl, rfl, by simpa using h.symm⟩)
  | cons l rest =>
    rw [chRead_one_cons hin] at h
    dsimp only at h
    split at h
    · exact .inr (.inr (.inl ⟨l, rest, rfl, by assumption, by simpa using h.symm⟩))
    · exact .inr (.inr (.inr ⟨l, rest, rfl, Nat.le_of_not_lt ‹_›, by simpa using h.symm⟩))

/-- Phase `RX_BODY` waits, stores a short body and fails, or stores the whole body and goes on. -/
theorem phaseRxBody_next {expired : Bool} {s t : State} (h : phaseRxBody expired s = .next t) :
    (s.chIn.length < s.rawLen.toNat - 1 ∧ expired = false ∧ t = s) ∨
    (s.chIn.length < s.rawLen.toNat - 1 ∧ expired = true ∧
      t = failLocal .bodyShort { s with chIn := [], rxbuf := Memory.writeRange s.rxbuf 0 s.chIn }) ∨
    (s.rawLen.toNat - 1 ≤ s.chIn.length ∧
      t = { s with
        chIn := s.chIn.drop (s.rawLen.toNat - 1),
        rxbuf := Memory.writeRange s.rxbuf 0 (s.chIn.take (s.rawLen.toNat - 1)), phase := .verify }) := by
  unfold phaseRxBody at h
  cases hr : chRead (s.rawLen.toNat - 1) expired s with
  | none =>
    rw [hr] at h
    obtain ⟨hl, he⟩ := chRead_none.1 hr
    exact .inl ⟨hl, he, by simpa using h.symm⟩
  | some p =>
    obtain ⟨b, u⟩ := p
    rw [hr] at h
    obtain ⟨hc, rfl, rfl⟩ := chRead_some.1 hr
    simp only [List.length_take] at h
    split at h
    · have hl : s.chIn.length < s.rawLen.toNat - 1 := by omega
      refine .inr (.inl ⟨hl, by rcases hc with hc | hc <;> [omega; exact hc], ?_⟩)
      rw [List.take_of_length_le (by omega), List.drop_of_length_le (by omega)] at h
      simpa using h.symm
    · exact .inr (.inr ⟨by omega, by simpa using h.symm⟩)

/-- Phase `VERIFY` with a body in place: `VCRC` is the recomputed CRC, and the two trailing bytes decide. -/
theorem phaseVerify_next {s t : State} (h : phaseVerify s = .next t) :
    ∃ b, bodyOf s = some b ∧
      ((b.drop (s.rawLen.toNat - 3) = crcEmit (crc16 (s.rawLen :: b.take (s.rawLen.toNat - 3))) ∧
          t = { s with vcrc := crc16 (s.rawLen :: b.take (s.rawLen.toNat - 3)), phase := .flush }) ∨
        (b.drop (s.rawLen.toNat - 3) ≠ crcEmit (crc16 (s.rawLen :: b.take (s.rawLen.toNat - 3))) ∧
          t = failLocal .crcMismatch { s with vcrc := crc16 (s.rawLen :: b.take (s.rawLen.toNat - 3)) })) := by
  unfold phaseVerify at h
  split at h
  · cases h
  · rename_i b hb
    refine ⟨b, hb, ?_⟩
    dsimp only at h
    split at h
    · exact .inl ⟨by assumption, by simpa using h.symm⟩
    · exact .inr ⟨by assumption, by simpa using h.symm⟩

end Sys2Proof.Machine
end

