-- ==== Sys2Proof/Laws/Exec.lean ====
section
/-! SUPPORT. For each instruction, once, what it can do when it answers a next state. -/

namespace Sys2Proof.Machine

theorem next_eq_next {u t : State} : (Host.Outcome.next u : Result) = .next t ↔ t = u := by
  rw [Host.Outcome.next.injEq, eq_comm]

theorem exec_nop_next {s t : State} : exec .nop s = .next t ↔ s.phase = .idle ∧ t = done [] s := by
  simp only [exec, execNop, atPhase_next, next_eq_next]

theorem exec_crcClr_next {s t : State} :
    exec .crcClr s = .next t ↔ s.phase = .idle ∧ t = done [] { s with crc := 0#16 } := by
  simp only [exec, execCrcClr, atPhase_next, next_eq_next, Config.crcInit]

theorem exec_crcUpd_next {b : Byte} {s t : State} :
    exec (.crcUpd b) s = .next t ↔ s.phase = .idle ∧ t = done [] { s with crc := crcByte s.crc b } := by
  simp only [exec, execCrcUpd, atPhase_next, next_eq_next]

theorem exec_crcEmit_next {s t : State} :
    exec .crcEmit s = .next t ↔ s.phase = .idle ∧ t = done (crcEmit s.crc) s := by
  simp only [exec, execCrcEmit, atPhase_next, next_eq_next]

theorem exec_crcVfy_next {w : Crc} {s t : State} :
    exec (.crcVfy w) s = .next t ↔ s.phase = .idle ∧ t = done [] { s with matchFlag := decide (s.crc = w) } := by
  simp only [exec, execCrcVfy, matchOf, atPhase_next, next_eq_next]

theorem exec_txbClr_next {s t : State} :
    exec .txbClr s = .next t ↔ s.phase = .idle ∧ t = done [] { s with txlen := 0#8 } := by
  simp only [exec, execTxbClr, atPhase_next, next_eq_next]

theorem exec_txbPush_next {b : Byte} {s t : State} :
    exec (.txbPush b) s = .next t ↔
      s.phase = .idle ∧
        ((s.txlen.toNat = 255 ∧ t = refuse .txFull s) ∨
          (s.txlen.toNat ≠ 255 ∧
            t = done [] { s with txbuf := Memory.write s.txbuf s.txlen.toNat b, txlen := s.txlen + 1#8 })) := by
  simp only [exec, execTxbPush, atPhase_next, Config.txbufCap]
  split <;> simp_all [@eq_comm State t]

theorem exec_xferExec_next {s t : State} :
    exec .xferExec s = .next t ↔
      s.phase = .idle ∧
        ((s.txlen.toNat < 5 ∧ t = refuse .frameShort s) ∨ (254 < s.txlen.toNat ∧ t = refuse .frameLong s) ∨
          (5 ≤ s.txlen.toNat ∧ s.txlen.toNat ≤ 254 ∧ t = startExchange s)) := by
  simp only [exec, execXferExec, atPhase_next, Config.execMinFrame, Config.execMaxFrame]
  split
  · rw [next_eq_next]
    refine and_congr_right fun _ => ⟨fun h => .inl ⟨by assumption, h⟩, ?_⟩
    rintro (⟨-, h⟩ | ⟨h, -⟩ | ⟨h, -, -⟩) <;> first | exact h | omega
  · split
    · rw [next_eq_next]
      refine and_congr_right fun _ => ⟨fun h => .inr (.inl ⟨by omega, h⟩), ?_⟩
      rintro (⟨h, -⟩ | ⟨-, h⟩ | ⟨-, h, -⟩) <;> first | exact h | omega
    · rw [next_eq_next]
      refine and_congr_right fun _ => ⟨fun h => .inr (.inr ⟨by omega, by omega, h⟩), ?_⟩
      rintro (⟨h, -⟩ | ⟨h, -⟩ | ⟨-, -, h⟩) <;> first | exact h | omega

theorem exec_rxbRd_next {i : Byte} {s t : State} :
    exec (.rxbRd i) s = .next t ↔
      s.phase = .idle ∧
        ((rxReadable s i = false ∧ t = refuse .rxIndex s) ∨
          (rxReadable s i = true ∧ ∃ b, Memory.read s.rxbuf i.toNat = some b ∧ t = done [b] s)) := by
  simp only [exec, execRxbRd, atPhase_next]
  cases rxReadable s i <;> cases Memory.read s.rxbuf i.toNat <;> simp [@eq_comm State t]

theorem exec_xferFlush_next {s t : State} :
    exec .xferFlush s = .next t ↔ s.phase = .idle ∧ t = done [] (chFlush s) := by
  simp only [exec, execXferFlush, atPhase_next, next_eq_next]

theorem exec_regRd_next {r : Byte} {s t : State} :
    exec (.regRd r) s = .next t ↔
      s.phase = .idle ∧
        ((regRead s r = none ∧ t = refuse .badReg s) ∨ (∃ v, regRead s r = some v ∧ t = done [v] s)) := by
  simp only [exec, execRegRd, atPhase_next]
  cases regRead s r <;> simp [@eq_comm State t]

theorem exec_sysReset_next {s t : State} :
    exec .sysReset s = .next t ↔ s.phase = .idle ∧ t = done [] (resetBlock s) := by
  simp only [exec, execSysReset, atPhase_next, next_eq_next]

theorem exec_req_next {s t : State} :
    exec .req s = .next t ↔
      s.phase = .tx ∧
        ∃ f, frameOf s = some f ∧ t = { chWrite ([0xFD#8, s.txlen] ++ f) s with phase := .rxStatus } := by
  simp only [exec, execReq, atPhase_next, Config.envStart]
  cases frameOf s <;> simp [@eq_comm State t]

theorem exec_stOk_next {s t : State} :
    exec .stOk s = .next t ↔ s.phase = .rxStatus ∧ t = { s with rawStatus := 0#8, phase := .rxLen } := by
  simp only [exec, execStOk, atPhase_next, next_eq_next]

/-- Decoding a status byte keeps its value: the row's fixed bits and the operand are the byte (R51). -/
theorem encode_decodeStatus : ∀ b : Byte, encode (decodeStatus b) = .rsp b := by decide

/-- A byte from 4 on decodes to one of the six rows of the bytes outside the contract, and to no other (R51). -/
theorem decodeStatus_small (b : Byte) :
    (decodeStatus b = .stOk ↔ b = 0#8) ∧ (decodeStatus b = .stRecv ↔ b = 1#8) ∧ (decodeStatus b = .stParam ↔ b = 2#8) ∧
      (decodeStatus b = .stExec ↔ b = 3#8) := by
  revert b; decide

theorem statusUnknown_next {b : Byte} {s t : State} :
    statusUnknown b s = .next t ↔ s.phase = .rxStatus ∧ t = failLocal .statusUnknown { s with rawStatus := b } := by
  simp only [statusUnknown, atPhase_next, next_eq_next]

/-- The outcome of every meaning depends on its phase alone: outside it is the model's fault. -/
theorem exec_outside_idle {i : Instr} {s : State} (hi : ∃ w, encode i = .hc w) (h : s.phase ≠ .idle) :
    exec i s = .fault (.outsidePhase .idle) := by
  obtain ⟨w, hw⟩ := hi
  cases i <;> first | exact atPhase_other _ h | cases hw

end Sys2Proof.Machine
end

