-- ==== Sys2Proof/Laws/PerInstr.lean ====
section
/-! SUPPORT. A fact about every instruction, one lemma per constructor: its word lies in its own row of the opcode
table. -/

namespace Sys2Proof

/-- Under the mask of the rows with a byte argument only `op` and the argument's high byte are left. -/
theorem hostWord_byteMask (op b : Byte) :
    (hostWord op (joinBytes b 0#8)).toNat &&& 0xFFFF00 = op.toNat <<< 16 := by
  have h : hostWord op (joinBytes b 0#8) &&& 0xFFFF00#24 = op.setWidth 24 <<< 16 := by
    ext i hi
    interval_cases i <;> simp [hostWord, joinBytes]
  have h' := congrArg BitVec.toNat h
  have ho := op.isLt
  rw [BitVec.toNat_and] at h'
  rw [show (0xFFFF00 : Nat) = (0xFFFF00#24).toNat from rfl, h', BitVec.toNat_shiftLeft, BitVec.toNat_setWidth]
  simp only [Nat.shiftLeft_eq]
  omega

/-- Under the mask of `CRC.VFY` only `op` is left. -/
theorem hostWord_wordMask (op : Byte) (w : Crc) : (hostWord op w).toNat &&& 0xFF0000 = op.toNat <<< 16 := by
  have h : hostWord op w &&& 0xFF0000#24 = op.setWidth 24 <<< 16 := by
    ext i hi
    interval_cases i <;> simp [hostWord]
  have h' := congrArg BitVec.toNat h
  have ho := op.isLt
  rw [BitVec.toNat_and] at h'
  rw [show (0xFF0000 : Nat) = (0xFF0000#24).toNat from rfl, h', BitVec.toNat_shiftLeft, BitVec.toNat_setWidth]
  simp only [Nat.shiftLeft_eq]
  omega

namespace Laws.InOwnRow

/-- The instruction's word has its row's format and, under the row's mask, the row's value (R54, opcode table). -/
def Statement (i : Instr) : Prop := ∃ r, opcodeTable[i.rowIndex]? = some r ∧ r.fits (encode i) = true

theorem byteRow {i : Instr} {r : TableRow} {op b : Byte} (hr : opcodeTable[i.rowIndex]? = some r)
    (he : encode i = .hc (hostWord op (joinBytes b 0#8))) (hf : r.format = .hc) (hm : r.mask = 0xFFFF00)
    (hv : r.value = op.toNat <<< 16) : Statement i :=
  ⟨r, hr, by simp [TableRow.fits, he, Encoded.format, Encoded.bits, hf, hm, hv, hostWord_byteMask]⟩

theorem nop : Statement .nop := ⟨_, rfl, rfl⟩
theorem crcClr : Statement .crcClr := ⟨_, rfl, rfl⟩
theorem crcUpd (b : Byte) : Statement (.crcUpd b) := byteRow rfl rfl rfl rfl rfl
theorem crcEmit : Statement .crcEmit := ⟨_, rfl, rfl⟩
theorem crcVfy (w : Crc) : Statement (.crcVfy w) :=
  ⟨_, rfl, by simp [TableRow.fits, encode, Encoded.format, Encoded.bits, hostWord_wordMask]⟩
theorem txbClr : Statement .txbClr := ⟨_, rfl, rfl⟩
theorem txbPush (b : Byte) : Statement (.txbPush b) := byteRow rfl rfl rfl rfl rfl
theorem xferExec : Statement .xferExec := ⟨_, rfl, rfl⟩
theorem rxbRd (i : Byte) : Statement (.rxbRd i) := byteRow rfl rfl rfl rfl rfl
theorem xferFlush : Statement .xferFlush := ⟨_, rfl, rfl⟩
theorem regRd (r : Byte) : Statement (.regRd r) := byteRow rfl rfl rfl rfl rfl
theorem sysReset : Statement .sysReset := ⟨_, rfl, rfl⟩
theorem req : Statement .req := ⟨_, rfl, rfl⟩
theorem stOk : Statement .stOk := ⟨_, rfl, rfl⟩
theorem stRecv : Statement .stRecv := ⟨_, rfl, rfl⟩
theorem stParam : Statement .stParam := ⟨_, rfl, rfl⟩
theorem stExec : Statement .stExec := ⟨_, rfl, rfl⟩
theorem stUnknown04 (ss : BitVec 2) : Statement (.stUnknown04 ss) := ⟨_, rfl, by revert ss; decide⟩
theorem stUnknown08 (ss : BitVec 3) : Statement (.stUnknown08 ss) := ⟨_, rfl, by revert ss; decide⟩
theorem stUnknown10 (ss : BitVec 4) : Statement (.stUnknown10 ss) := ⟨_, rfl, by revert ss; decide⟩
theorem stUnknown20 (ss : BitVec 5) : Statement (.stUnknown20 ss) := ⟨_, rfl, by revert ss; decide⟩
theorem stUnknown40 (ss : BitVec 6) : Statement (.stUnknown40 ss) := ⟨_, rfl, by revert ss; decide⟩
theorem stUnknown80 (ss : BitVec 7) : Statement (.stUnknown80 ss) := ⟨_, rfl, by revert ss; decide⟩

end Laws.InOwnRow

end Sys2Proof
end

