-- ==== Sys2Proof/Laws/Step.lean ====
section
/-! SUPPORT. What a step can do, once. -/

namespace Sys2Proof.Machine

/-! ## The schedule -/

theorem step_nil {s : State} (h : s.turns = []) : step s = blockTurn true s := by
  simp only [step, nextTurn, h]

theorem step_cons {s : State} {a : Turn} {ts : List Turn} (h : s.turns = a :: ts) :
    step s = agentTurn a { s with turns := ts } := by
  simp only [step, nextTurn, h]

/-- Whose turn a step is: the block's (the timer having fired or not), or one of the other agents'. -/
theorem step_next {s t : State} (h : step s = .next t) :
    (s.turns = [] ∧ blockTurn true s = .next t) ∨
    (∃ ts, s.turns = .block :: ts ∧ blockTurn false { s with turns := ts } = .next t) ∨
    (∃ ts, s.turns = .timer :: ts ∧ readWaiting s = true ∧ blockTurn true { s with turns := ts } = .next t) ∨
    (∃ ts, s.turns = .timer :: ts ∧ readWaiting s = false ∧ t = { s with turns := ts }) ∨
    (∃ ts w, s.turns = .host w :: ts ∧ t = { s with turns := ts, hostq := s.hostq ++ [w] }) ∨
    (∃ ts b, s.turns = .peerSend b :: ts ∧ t = { s with turns := ts, chIn := s.chIn ++ [b] }) ∨
    (∃ ts n, s.turns = .peerTake n :: ts ∧ t = { s with turns := ts, chOutq := s.chOutq.drop n }) ∨
    (∃ ts, s.turns = .rst :: ts ∧ t = hardReset { s with turns := ts }) := by
  cases ht : s.turns with
  | nil => exact .inl ⟨rfl, by rwa [step_nil ht] at h⟩
  | cons a ts =>
    rw [step_cons ht] at h
    cases a with
    | block => exact .inr (.inl ⟨ts, rfl, h⟩)
    | timer =>
      simp only [agentTurn] at h
      split at h
      · exact .inr (.inr (.inl ⟨ts, rfl, by assumption, h⟩))
      · rename_i hw
        exact .inr (.inr (.inr (.inl ⟨ts, rfl, Bool.eq_false_iff.2 hw, next_eq_next.1 h⟩)))
    | host w => exact .inr (.inr (.inr (.inr (.inl ⟨ts, w, rfl, next_eq_next.1 h⟩))))
    | peerSend b => exact .inr (.inr (.inr (.inr (.inr (.inl ⟨ts, b, rfl, next_eq_next.1 h⟩)))))
    | peerTake n => exact .inr (.inr (.inr (.inr (.inr (.inr (.inl ⟨ts, n, rfl, next_eq_next.1 h⟩))))))
    | rst => exact .inr (.inr (.inr (.inr (.inr (.inr (.inr ⟨ts, rfl, next_eq_next.1 h⟩))))))

/-! ## The block's turn, phase by phase -/

theorem blockTurn_idle_nil {e : Bool} {s : State} (hp : s.phase = .idle) (hq : s.hostq = []) :
    blockTurn e s = .next s := by
  simp only [blockTurn, hp, hq]

theorem blockTurn_idle_cons {e : Bool} {s : State} {w : HostWord} {q : List HostWord} (hp : s.phase = .idle)
    (hq : s.hostq = w :: q) : blockTurn e s = acceptWord w { s with hostq := q } := by
  simp only [blockTurn, hp, hq]

theorem blockTurn_tx {e : Bool} {s : State} (hp : s.phase = .tx) : blockTurn e s = exec .req s := by
  simp only [blockTurn, hp]

theorem blockTurn_rxStatus {e : Bool} {s : State} (hp : s.phase = .rxStatus) :
    blockTurn e s = phaseRxStatus e s := by
  simp only [blockTurn, hp]

theorem blockTurn_rxLen {e : Bool} {s : State} (hp : s.phase = .rxLen) : blockTurn e s = phaseRxLen e s := by
  simp only [blockTurn, hp]

theorem blockTurn_rxBody {e : Bool} {s : State} (hp : s.phase = .rxBody) : blockTurn e s = phaseRxBody e s := by
  simp only [blockTurn, hp]

theorem blockTurn_verify {e : Bool} {s : State} (hp : s.phase = .verify) : blockTurn e s = phaseVerify s := by
  simp only [blockTurn, hp]

theorem blockTurn_flush {e : Bool} {s : State} (hp : s.phase = .flush) :
    blockTurn e s = .next (completeExchange s) := by
  simp only [blockTurn, hp, phaseFlush]

theorem acceptWord_ok {w : HostWord} {i : Instr} {s : State} (h : decode (.hc w) = .ok i) :
    acceptWord w s = exec i s := by
  simp only [acceptWord, h]

theorem acceptWord_error {w : HostWord} {e : DecodeRefusal} {s : State} (h : decode (.hc w) = .error e) :
    acceptWord w s = .next (refuse (ackOf e) s) := by
  simp only [acceptWord, h]

/-- Phase `RX_STATUS` waits, times out, or classifies the byte it read. -/
theorem phaseRxStatus_next {e : Bool} {s t : State} (h : phaseRxStatus e s = .next t) :
    (s.chIn = [] ∧ e = false ∧ t = s) ∨
    (s.chIn = [] ∧ e = true ∧ t = failLocal .statusTimeout s) ∨
    (∃ b rest, s.chIn = b :: rest ∧ exec (decodeStatus b) { s with chIn := rest } = .next t) := by
  unfold phaseRxStatus at h
  cases hin : s.chIn with
  | nil =>
    have hs : { s with chIn := [] } = s := by rw [← hin]
    cases e with
    | false =>
      rw [chRead_none.2 (by simp [hin])] at h
      exact .inl ⟨rfl, rfl, next_eq_next.1 h⟩
    | true =>
      rw [chRead_one_short hin, hs] at h
      exact .inr (.inl ⟨rfl, rfl, next_eq_next.1 h⟩)
  | cons b rest =>
    rw [chRead_one_cons hin] at h
    exact .inr (.inr ⟨b, rest, rfl, h⟩)

theorem phase_cases (s : State) :
    s.phase = .idle ∨ s.phase = .tx ∨ s.phase = .rxStatus ∨ s.phase = .rxLen ∨ s.phase = .rxBody ∨ s.phase = .verify ∨
      s.phase = .flush := by
  cases s.phase <;> simp

/-- What the block can do in its turn, by phase. -/
theorem blockTurn_next {e : Bool} {s t : State} (h : blockTurn e s = .next t) :
    (s.phase = .idle ∧ s.hostq = [] ∧ t = s) ∨
    (s.phase = .idle ∧ ∃ w q err, s.hostq = w :: q ∧ decode (.hc w) = .error err ∧
      t = refuse (ackOf err) { s with hostq := q }) ∨
    (s.phase = .idle ∧ ∃ w q i, s.hostq = w :: q ∧ decode (.hc w) = .ok i ∧ exec i { s with hostq := q } = .next t) ∨
    (s.phase = .tx ∧ exec .req s = .next t) ∨
    (s.phase = .rxStatus ∧ phaseRxStatus e s = .next t) ∨
    (s.phase = .rxLen ∧ phaseRxLen e s = .next t) ∨
    (s.phase = .rxBody ∧ phaseRxBody e s = .next t) ∨
    (s.phase = .verify ∧ phaseVerify s = .next t) ∨
    (s.phase = .flush ∧ t = completeExchange s) := by
  obtain hp | hp | hp | hp | hp | hp | hp := phase_cases s
  · obtain hq | ⟨w, q, hq⟩ : s.hostq = [] ∨ ∃ w q, s.hostq = w :: q := by cases s.hostq <;> simp
    · exact .inl ⟨hp, hq, next_eq_next.1 (by rwa [blockTurn_idle_nil hp hq] at h)⟩
    · rw [blockTurn_idle_cons hp hq] at h
      cases hd : decode (.hc w) with
      | error err =>
        rw [acceptWord_error hd] at h
        exact .inr (.inl ⟨hp, w, q, err, hq, hd, next_eq_next.1 h⟩)
      | ok i =>
        rw [acceptWord_ok hd] at h
        exact .inr (.inr (.inl ⟨hp, w, q, i, hq, hd, h⟩))
  · exact .inr (.inr (.inr (.inl ⟨hp, by rwa [blockTurn_tx hp] at h⟩)))
  · exact .inr (.inr (.inr (.inr (.inl ⟨hp, by rwa [blockTurn_rxStatus hp] at h⟩))))
  · exact .inr (.inr (.inr (.inr (.inr (.inl ⟨hp, by rwa [blockTurn_rxLen hp] at h⟩)))))
  · exact .inr (.inr (.inr (.inr (.inr (.inr (.inl ⟨hp, by rwa [blockTurn_rxBody hp] at h⟩))))))
  · exact .inr (.inr (.inr (.inr (.inr (.inr (.inr (.inl ⟨hp, by rwa [blockTurn_verify hp] at h⟩)))))))
  · rw [blockTurn_flush hp] at h
    exact .inr (.inr (.inr (.inr (.inr (.inr (.inr (.inr ⟨hp, next_eq_next.1 h⟩)))))))

/-- What a word that decodes can decode to: a host operation, never a channel row. -/
theorem decode_hc_hostOp {w : HostWord} {i : Instr} (h : decode (.hc w) = .ok i) :
    i ≠ .req ∧ (encode i).format = .hc := by
  simp only [decode, decodeHost] at h
  split at h <;>
    first
    | (obtain ⟨-, rfl⟩ := noArg_eq_ok.1 h; exact ⟨by simp, rfl⟩)
    | (obtain ⟨-, rfl⟩ := byteArg_eq_ok.1 h; exact ⟨by simp, rfl⟩)
    | (obtain rfl := Except.ok.inj h; exact ⟨by simp, rfl⟩)
    | cases h

end Sys2Proof.Machine
end

