-- ==== Sys2Proof/Tests/Slice0.lean ====
section
/-! SUPPORT. Tests of the model against words and values written out from the spec (the vectors V1 to V121 of
spec/95_test_vectors.md), and for every obligation with hypotheses a state and operands that meet them. -/

namespace Sys2Proof.Tests

open Sys2Proof.Machine Sys2Proof.Safety

/-! ## Small states and readers of an outcome -/

/-- The next state of an outcome. -/
def nextOf : Result → Option State
  | .next t => some t
  | .fault _ => none
  | .refused _ => none

/-- The fault of an outcome. -/
def faultOf : Result → Option Fault
  | .fault r => some r
  | .next _ => none
  | .refused _ => none

/-- The frame `A0 A1 A2 A3 A4` of the vectors is in the buffer; everything else is as after reset. -/
def loaded : State :=
  { State.reset with
    txbuf := [(0, 0xA0#8), (1, 0xA1#8), (2, 0xA2#8), (3, 0xA3#8), (4, 0xA4#8)], txlen := 5#8 }

/-- An exchange with that frame stands before phase `p`, the peer's bytes being there. -/
def busyAt (p : Phase) (input : List Byte) : State := { loaded with phase := p, chIn := input }

/-- The body `DE AD BE EF A4 74` of V80, or another one, has been read behind the length byte `l`. -/
def readBody (l d0 d1 d2 d3 lo hi : Byte) : State :=
  { busyAt .verify [] with
    rawLen := l, rxbuf := [(0, d0), (1, d1), (2, d2), (3, d3), (4, lo), (5, hi)] }

/-- V80 before its last phase, two stray bytes being there (V84). -/
def verified : State :=
  { readBody 0x07#8 0xDE#8 0xAD#8 0xBE#8 0xEF#8 0xA4#8 0x74#8 with
    phase := .flush, vcrc := 0x74A4#16, chIn := [0x99#8, 0x98#8] }

/-- The end state of V80. -/
def afterV80 : State :=
  { verified with phase := .idle, chIn := [], dlen := 4#8, rxvalid := true, resTag := .ok, answer := some ⟨.done, []⟩ }

/-- What the acknowledge and the returned bytes of an outcome are. -/
def answerOf (r : Result) : Option (Ack × List Byte) :=
  (nextOf r).bind fun t => t.answer.map fun a => (a.ack, a.rdata)

/-! ## Well-formedness -/

theorem test_wf_regRd_reserved : Instr.wellFormed (.regRd 0x0C#8) = false ∧ Instr.wellFormed (.regRd 0xFF#8) = false := by
  decide

theorem test_wf_regRd_used : Instr.wellFormed (.regRd 0x00#8) = true ∧ Instr.wellFormed (.regRd 0x0B#8) = true := by
  decide

theorem test_wf_frame_length :
    frameLengthOk 4 = false ∧ frameLengthOk 5 = true ∧ frameLengthOk 254 = true ∧ frameLengthOk 255 = false := by decide

theorem test_wf_length_byte :
    lengthByteOk 0#8 = false ∧ lengthByteOk 2#8 = false ∧ lengthByteOk 3#8 = true ∧ lengthByteOk 255#8 = true := by decide

/-! ## Decoding: words written out bit by bit from R53, R54, R46 and R51 -/

theorem test_decode_crc_words :
    decode (.hc 0b000000010000000000000000#24) = .ok .crcClr ∧
    decode (.hc 0b000000100000000000000100#24) = .ok (.crcUpd 0x04#8) ∧
    decode (.hc 0b000000110000000000000000#24) = .ok .crcEmit ∧
    decode (.hc 0b000001000100001100110011#24) = .ok (.crcVfy 0x4333#16) := by decide

theorem test_decode_frame_buffer_words :
    decode (.hc 0b000100000000000000000000#24) = .ok .txbClr ∧
    decode (.hc 0b000100010000000010100000#24) = .ok (.txbPush 0xA0#8) := by decide

theorem test_decode_exchange_words :
    decode (.hc 0b001000000000000000000000#24) = .ok .xferExec ∧
    decode (.hc 0b001000010000000000000011#24) = .ok (.rxbRd 3#8) ∧
    decode (.hc 0b001000100000000000000000#24) = .ok .xferFlush ∧
    decode (.req 0b11111101#8) = .ok .req := by decide

theorem test_decode_system_words :
    decode (.hc 0b000000000000000000000000#24) = .ok .nop ∧
    decode (.hc 0b001100000000000000000101#24) = .ok (.regRd 0x05#8) ∧
    decode (.hc 0b001111110000000000000000#24) = .ok .sysReset := by decide

theorem test_decode_status_bytes :
    decode (.rsp 0b00000000#8) = .ok .stOk ∧ decode (.rsp 0b00000001#8) = .ok .stRecv ∧
    decode (.rsp 0b00000010#8) = .ok .stParam ∧ decode (.rsp 0b00000011#8) = .ok .stExec ∧
    decode (.rsp 0b00000110#8) = .ok (.stUnknown04 0b10#2) ∧ decode (.rsp 0b00001101#8) = .ok (.stUnknown08 0b101#3) ∧
    decode (.rsp 0b00010011#8) = .ok (.stUnknown10 0b0011#4) ∧ decode (.rsp 0b00110001#8) = .ok (.stUnknown20 0b10001#5) ∧
    decode (.rsp 0b01100011#8) = .ok (.stUnknown40 0b100011#6) ∧
    decode (.rsp 0b11111101#8) = .ok (.stUnknown80 0b1111101#7) := by decide

/-- V116, V117: reserved operation numbers, at the ends of every gap of R56. -/
theorem test_decode_reserved_words :
    [0x050000#24, 0x0F1234#24, 0x120000#24, 0x1F0000#24, 0x230000#24, 0x2F0000#24, 0x310000#24, 0x3E0000#24,
      0x400000#24, 0xFF0000#24, 0xFFFFFF#24].all (fun w => decide (decode (.hc w) = .error .badOp)) = true := by decide

/-- V48, V49, V50, V64, V70, V112, V114, V118: argument bits the operation does not use. -/
theorem test_decode_unused_argument_bits :
    [0x010001#24, 0x020100#24, 0x030001#24, 0x111100#24, 0x200001#24, 0x210100#24, 0x220001#24, 0x000001#24, 0x300100#24,
      0x3F0001#24, 0x108000#24].all (fun w => decide (decode (.hc w) = .error .badArg)) = true := by decide

theorem test_decode_request_start : decode (.req 0xFC#8) = .error .badStart := by decide

/-- No two rows of one format of the opcode table share a word. -/
theorem test_table_rows_are_disjoint :
    opcodeTable.Pairwise fun r q => r.format ≠ q.format ∨ (r.value ^^^ q.value) &&& (r.mask &&& q.mask) ≠ 0 := by decide

theorem test_table_words :
    decodeTableWord 24 0x0200A5 = some (.crcUpd 0xA5#8) ∧ decodeTableWord 24 0x050000 = none ∧
    decodeTableWord 8 0xFD = some .req ∧ decodeTableWord 8 0x80 = some (.stUnknown80 0#7) ∧
    decodeTableWord 16 0 = none := by decide

/-- The request of P2, and the response of V80 with two more bytes behind it, cut by their length rules. -/
theorem test_channel_formats :
    encodeRequest [0xA0#8, 0xA1#8, 0xA2#8, 0xA3#8, 0xA4#8] = [0xFD#8, 5#8, 0xA0#8, 0xA1#8, 0xA2#8, 0xA3#8, 0xA4#8] ∧
    decodeResponse [0x00#8, 0x04#8, 0x00#8, 0x03#8, 0x40#8, 0x99#8] =
      some (.full 0x04#8 [0x00#8, 0x03#8, 0x40#8], [0x99#8]) ∧
    decodeResponse [0x03#8, 0x04#8] = some (.error 0x03#8, [0x04#8]) ∧
    decodeResponse [0x00#8, 0x02#8, 0x11#8] = none := by decide

/-! ## The CRC unit -/

/-- V1a to V1l. -/
theorem test_crcBit :
    crcBit 0x0000#16 false = 0x0000#16 ∧ crcBit 0x0000#16 true = 0x8005#16 ∧ crcBit 0x8000#16 false = 0x8005#16 ∧
    crcBit 0x8000#16 true = 0x0000#16 ∧ crcBit 0x4000#16 false = 0x8000#16 ∧ crcBit 0x0001#16 false = 0x0002#16 ∧
    crcBit 0x7FFF#16 false = 0xFFFE#16 ∧ crcBit 0x7FFF#16 true = 0x7FFB#16 ∧ crcBit 0xFFFF#16 false = 0x7FFB#16 ∧
    crcBit 0xFFFF#16 true = 0xFFFE#16 ∧ crcBit 0x8005#16 false = 0x800F#16 ∧ crcBit 0x8005#16 true = 0x000A#16 := by decide

/-- The table and the values of section 2.2. -/
theorem test_crcByte :
    [0x00#8, 0x01#8, 0x02#8, 0x03#8, 0x04#8, 0x07#8, 0x80#8, 0x55#8, 0xAA#8, 0xFD#8, 0xFF#8].map (crcByte 0#16) =
      [0x0000#16, 0x8303#16, 0x8183#16, 0x0280#16, 0x80C3#16, 0x8243#16, 0x8005#16, 0x03FC#16, 0x01FE#16, 0x8381#16,
        0x0202#16] ∧
    crcByte 0xFFFF#16 0x00#8 = 0xFD02#16 ∧ crcByte 0xFFFF#16 0xFF#8 = 0xFF00#16 ∧ crcByte 0x1234#16 0x56#8 = 0x3510#16 := by
  decide

/-- V2, V5 to V9, V13, V14, V21. -/
theorem test_crc16 :
    crc16 [] = 0x0000#16 ∧ crc16 [0x04#8, 0x11#8] = 0x4333#16 ∧ crc16 [0x00#8, 0x04#8, 0x11#8] = 0x4333#16 ∧
    crc16 [0x11#8, 0x04#8] = 0xB0C9#16 ∧ crc16 (List.replicate 4 0xFF#8) = 0x8029#16 ∧
    crc16 [0x31#8, 0x32#8, 0x33#8, 0x34#8, 0x35#8, 0x36#8, 0x37#8, 0x38#8, 0x39#8] = 0xBCDD#16 ∧
    crc16 [0x07#8, 0xDE#8, 0xAD#8, 0xBE#8, 0xEF#8] = 0x74A4#16 ∧ crc16 [0x07#8, 0xDF#8, 0xAD#8, 0xBE#8, 0xEF#8] = 0xF49B#16 ∧
    crc16 [0x04#8, 0x11#8, 0x33#8, 0x43#8] = 0x202C#16 := by decide +kernel

/-- V5, V9, V13. -/
theorem test_crcEmit :
    crcEmit 0x4333#16 = [0x33#8, 0x43#8] ∧ crcEmit 0xBCDD#16 = [0xDD#8, 0xBC#8] ∧ crcEmit 0x74A4#16 = [0xA4#8, 0x74#8] := by
  decide

/-! ## The instructions, one operation each -/

/-- V40. -/
theorem test_crcClr :
    (nextOf (exec .crcClr { State.reset with crc := 0x4333#16, matchFlag := true })).map (fun t => (t.crc, t.matchFlag)) =
      some (0#16, true) := by decide

/-- V42. -/
theorem test_crcUpd : (nextOf (exec (.crcUpd 0x11#8) { State.reset with crc := 0x80C3#16 })).map State.crc = some 0x4333#16 := by
  decide

/-- V51. -/
theorem test_crcUpd_keeps_match :
    (nextOf (exec (.crcUpd 0xFF#8) { State.reset with crc := 0x4333#16, matchFlag := true })).map State.matchFlag =
      some true := by decide

/-- V44. -/
theorem test_crcEmit_op :
    answerOf (exec .crcEmit { State.reset with crc := 0x4333#16 }) = some (.done, [0x33#8, 0x43#8]) := by decide

/-- V45. -/
theorem test_crcVfy_equal :
    (nextOf (exec (.crcVfy 0x4333#16) { State.reset with crc := 0x4333#16 })).map State.matchFlag = some true := by decide

/-- V46: the bytes swapped. -/
theorem test_crcVfy_swapped :
    (nextOf (exec (.crcVfy 0x3343#16) { State.reset with crc := 0x4333#16, matchFlag := true })).map State.matchFlag =
      some false := by decide

/-- V60. -/
theorem test_txbClr : (nextOf (exec .txbClr loaded)).map State.txlen = some 0#8 := by decide

/-- V61, V62. -/
theorem test_txbPush :
    (nextOf (exec (.txbPush 0xA0#8) State.reset)).map (fun t => (t.txbuf, t.txlen)) = some ([(0, 0xA0#8)], 1#8) ∧
    (nextOf (exec (.txbPush 0xFD#8) { State.reset with txlen := 254#8 })).map (fun t => (t.txbuf, t.txlen)) =
      some ([(254, 0xFD#8)], 255#8) := by decide

/-- V63. -/
theorem test_txbPush_full :
    (nextOf (exec (.txbPush 0x00#8) { State.reset with txlen := 255#8 })) =
      some { State.reset with txlen := 255#8, answer := some ⟨.txFull, []⟩ } := by decide

/-- V65 to V67. -/
theorem test_xferExec_refused :
    answerOf (exec .xferExec State.reset) = some (.frameShort, []) ∧
    answerOf (exec .xferExec { State.reset with txlen := 4#8 }) = some (.frameShort, []) ∧
    answerOf (exec .xferExec { State.reset with txlen := 255#8 }) = some (.frameLong, []) := by decide

/-- R91, from the end state of V80. -/
theorem test_xferExec_start :
    (nextOf (exec .xferExec afterV80)).map (fun t => (t.phase, t.rxvalid, t.dlen, t.resTag, t.rawLen, t.vcrc)) =
      some (.tx, false, 0#8, .none, 0#8, 0#16) := by decide

/-- V68. -/
theorem test_req :
    (nextOf (exec .req (busyAt .tx []))).map (fun t => (t.chSent, t.chOutq, t.phase)) =
      some ([0xFD#8, 0x05#8, 0xA0#8, 0xA1#8, 0xA2#8, 0xA3#8, 0xA4#8],
        [0xFD#8, 0x05#8, 0xA0#8, 0xA1#8, 0xA2#8, 0xA3#8, 0xA4#8], .rxStatus) := by decide

/-- The first phase of V80. -/
theorem test_stOk :
    (nextOf (exec .stOk (busyAt .rxStatus []))).map (fun t => (t.phase, t.rawStatus, t.resTag)) =
      some (.rxLen, 0#8, .none) := by decide

/-- V86 to V88. -/
theorem test_chip_errors :
    (nextOf (exec .stRecv (busyAt .rxStatus []))).map (fun t => (t.resTag, t.resCode, t.cause, t.rawStatus)) =
      some (.receiveError, 1#8, .statusNonzero, 1#8) ∧
    (nextOf (exec .stParam (busyAt .rxStatus []))).map (fun t => (t.resTag, t.resCode, t.cause, t.rawStatus)) =
      some (.paramError, 2#8, .statusNonzero, 2#8) ∧
    (nextOf (exec .stExec (busyAt .rxStatus []))).map (fun t => (t.resTag, t.resCode, t.cause, t.rawStatus)) =
      some (.executeError, 3#8, .statusNonzero, 3#8) := by decide

/-- V90 to V92 and one byte of each other row: the raw byte is kept, the code is 99. -/
theorem test_unknown_status :
    [Instr.stUnknown04 0#2, .stUnknown08 7#3, .stUnknown10 1#4, .stUnknown20 0#5, .stUnknown40 0x23#6, .stUnknown80 0x7F#7].map
        (fun i => (nextOf (exec i (busyAt .rxStatus []))).map fun t => (t.rawStatus, t.resCode)) =
      [some (0x04#8, 99#8), some (0x0F#8, 99#8), some (0x11#8, 99#8), some (0x20#8, 99#8), some (0x63#8, 99#8),
        some (0xFF#8, 99#8)] := by decide

/-- Section 2.7, after V80. -/
theorem test_rxbRd :
    answerOf (exec (.rxbRd 0#8) afterV80) = some (.done, [0xDE#8]) ∧ answerOf (exec (.rxbRd 3#8) afterV80) = some (.done, [0xEF#8]) ∧
    answerOf (exec (.rxbRd 4#8) afterV80) = some (.rxIndex, []) ∧ answerOf (exec (.rxbRd 0#8) State.reset) = some (.rxIndex, []) := by
  decide

/-- V110, V111. -/
theorem test_xferFlush :
    (nextOf (exec .xferFlush { afterV80 with chIn := [2#8], chOutq := [0xFD#8, 5#8] })) =
      some { afterV80 with answer := some ⟨.done, []⟩ } := by decide

/-- Section 2.7, after V80, every register. -/
theorem test_regRd :
    [0x00#8, 0x01#8, 0x02#8, 0x03#8, 0x04#8, 0x05#8, 0x06#8, 0x07#8, 0x08#8, 0x09#8, 0x0A#8, 0x0B#8].map (fun r =>
        answerOf (exec (.regRd r) afterV80)) =
      [0x00#8, 0x00#8, 0x02#8, 0x05#8, 0x04#8, 0x01#8, 0x00#8, 0x00#8, 0x00#8, 0x07#8, 0xA4#8, 0x74#8].map fun v =>
        some (.done, [v]) := by decide

/-- Section 2.7, the reserved numbers. -/
theorem test_regRd_reserved :
    answerOf (exec (.regRd 0x0C#8) afterV80) = some (.badReg, []) ∧ answerOf (exec (.regRd 0xFF#8) afterV80) = some (.badReg, []) := by
  decide

/-- V115. -/
theorem test_sysReset :
    (nextOf (exec .sysReset { afterV80 with crc := 0x4333#16, matchFlag := true, chIn := [0x99#8] })) =
      some { State.reset with chIn := [0x99#8], answer := some ⟨.done, []⟩ } := by decide

/-- V113. -/
theorem test_nop : (nextOf (exec .nop loaded)) = some { loaded with answer := some ⟨.done, []⟩ } := by decide

/-! ## Steps: the phases, the agents, the fetch -/

/-- V85 and V90, the status phase. -/
theorem test_phase_rxStatus :
    (nextOf (step (busyAt .rxStatus []))).map (fun t => (t.cause, t.phase)) = some (.statusTimeout, .idle) ∧
    (nextOf (step (busyAt .rxStatus [0x04#8, 0x05#8]))).map (fun t => (t.cause, t.chIn)) =
      some (.statusUnknown, [0x05#8]) := by decide

/-- V93, V95, the length phase. -/
theorem test_phase_rxLen :
    (nextOf (step (busyAt .rxLen []))).map State.cause = some .lenTimeout ∧
    (nextOf (step (busyAt .rxLen [0x02#8, 0x11#8]))).map (fun t => (t.cause, t.rawLen, t.chIn)) =
      some (.lenBad, 2#8, [0x11#8]) := by decide

/-- V97, V84, the body phase. -/
theorem test_phase_rxBody :
    (nextOf (step { busyAt .rxBody [0xDE#8, 0xAD#8, 0xBE#8, 0xEF#8, 0xA4#8] with rawLen := 7#8 })).map
        (fun t => (t.cause, t.chIn)) = some (.bodyShort, []) ∧
    (nextOf (step { busyAt .rxBody [0xDE#8, 0xAD#8, 0xBE#8, 0xEF#8, 0xA4#8, 0x74#8, 0x99#8] with rawLen := 7#8 })).map
        (fun t => (t.phase, t.rxbuf.map Prod.snd, t.chIn)) =
      some (.verify, [0xDE#8, 0xAD#8, 0xBE#8, 0xEF#8, 0xA4#8, 0x74#8], [0x99#8]) := by decide

/-- V80, V98, V99, V100, V101, the verify phase: both bytes are compared, low byte first. -/
theorem test_phase_verify :
    ([(0xDE#8, 0xA4#8, 0x74#8), (0xDE#8, 0xA4#8, 0x75#8), (0xDE#8, 0xA5#8, 0x74#8), (0xDE#8, 0x74#8, 0xA4#8),
        (0xDF#8, 0xA4#8, 0x74#8)].map fun x =>
          (nextOf (step (readBody 0x07#8 x.1 0xAD#8 0xBE#8 0xEF#8 x.2.1 x.2.2))).map fun t => (t.cause, t.vcrc)) =
      [some (.none, 0x74A4#16), some (.crcMismatch, 0x74A4#16), some (.crcMismatch, 0x74A4#16),
        some (.crcMismatch, 0x74A4#16), some (.crcMismatch, 0xF49B#16)] := by decide +kernel

/-- V84, the flush phase. -/
theorem test_phase_flush : nextOf (step verified) = some afterV80 := by decide

/-- V104: the timer ends the read of the body, or the peer's next byte arrives first. -/
theorem test_timer_or_peer :
    (nextOf (step { busyAt .rxBody [0xDE#8] with rawLen := 7#8, turns := [.timer] })).map State.cause = some .bodyShort ∧
    (nextOf (step { busyAt .rxBody [0xDE#8] with rawLen := 7#8, turns := [.peerSend 0xAD#8] })).map
        (fun t => (t.phase, t.chIn)) = some (.rxBody, [0xDE#8, 0xAD#8]) := by decide

/-- V121: hardware reset in the middle of an exchange. -/
theorem test_rst :
    nextOf (step { busyAt .rxBody [0xDE#8] with rawLen := 7#8, turns := [.rst] }) =
      some { State.reset with chIn := [0xDE#8] } := by decide

/-- V41 and V43 from reset: the very next step runs the placed word. -/
theorem test_fetch_host_word :
    (nextOf (step (State.reset.withFetchWord 24 0x020004))).map (fun t => (t.crc, t.answer)) =
      some (0x80C3#16, some ⟨.done, []⟩) := by decide

theorem test_fetch_channel_rows :
    (nextOf (step (State.reset.withFetchWord 8 0xFD))).map State.chSent = some [0xFD#8, 0#8] ∧
    (nextOf (step (State.reset.withFetchWord 8 0x63))).map State.rawStatus = some 0x63#8 := by decide

/-- The words of P2 and, after the tag and the length are known, its reads (R59). -/
theorem test_pseudo_execute :
    (pseudoExecute [0xA0#8, 0xA1#8, 0xA2#8, 0xA3#8, 0xA4#8]).map encode =
      [.hc 0x100000#24, .hc 0x1100A0#24, .hc 0x1100A1#24, .hc 0x1100A2#24, .hc 0x1100A3#24, .hc 0x1100A4#24,
        .hc 0x200000#24, .hc 0x300005#24] ∧
    (pseudoExecuteThen 1#8 ++ pseudoExecuteData 2#8).map encode = [.hc 0x300004#24, .hc 0x210000#24, .hc 0x210001#24] ∧
    (pseudoExecuteThen 4#8).map encode = [.hc 0x300006#24] := by decide

/-! ## Witnesses: the hypotheses of the obligations can be met -/

theorem witness_EncodeReadsBackDecode :
    decode (.hc 0x0200A5#24) = .ok (.crcUpd 0xA5#8) ∧ decode (.rsp 0xFF#8) = .ok (.stUnknown80 0x7F#7) := by decide

theorem witness_DecodedWordsAreTheTableRows :
    decode (.req 0xFD#8) = .ok .req ∧ decode (.hc 0x050000#24) = .error .badOp ∧ decode (.hc 0x010001#24) = .error .badArg := by
  decide

/-- The three clauses, at the ends of the ranges of R56. -/
theorem witness_UndefinedWordsAreRefusedByName :
    (∀ op ∈ [0x05#8, 0x0F#8, 0x12#8, 0x1F#8, 0x23#8, 0x2F#8, 0x31#8, 0x3E#8, 0x40#8, 0xFF#8],
      opField (hostWord op 0#16) ∉
        [0x00#8, 0x01#8, 0x02#8, 0x03#8, 0x04#8, 0x10#8, 0x11#8, 0x20#8, 0x21#8, 0x22#8, 0x30#8, 0x3F#8]) ∧
    (opField 0x010001#24 ∈ [0x00#8, 0x01#8, 0x03#8, 0x10#8, 0x20#8, 0x22#8, 0x3F#8] ∧ argField 0x010001#24 ≠ 0#16) ∧
    (opField 0x020100#24 ∈ [0x02#8, 0x11#8, 0x21#8, 0x30#8] ∧ highByte (argField 0x020100#24) ≠ 0#8) := by decide

theorem witness_ChannelFormatsReadBack :
    ([] : List Byte).length ≤ 255 ∧ (List.replicate 255 0xFD#8).length ≤ 255 ∧ (0x01#8 ≠ 0#8 ∧ 0xFF#8 ≠ 0#8) ∧
    (3 ≤ (3#8).toNat ∧ [0x80#8, 0x02#8].length = (3#8).toNat - 1) ∧
    (3 ≤ (255#8).toNat ∧ (List.replicate 254 0#8).length = (255#8).toNat - 1) := by decide +kernel

theorem witness_StepRunsTheHostWord :
    blockNext { loaded with hostq := [0x200000#24] } ∧ blockNext { loaded with hostq := [0x200000#24], turns := [.block] } ∧
    loaded.phase = .idle ∧ decode (.hc 0x200000#24) = .ok .xferExec := ⟨.inl rfl, .inr ⟨[], rfl⟩, rfl, rfl⟩

theorem witness_StepRunsTheChannelRow :
    (blockNext (busyAt .tx []) ∧ (busyAt .tx []).phase = .tx ∧ decode (.req Config.envStart) = .ok .req) ∧
    (blockNext (busyAt .rxStatus [0x02#8]) ∧ (busyAt .rxStatus [0x02#8]).phase = .rxStatus ∧
      (busyAt .rxStatus [0x02#8]).chIn = 0x02#8 :: [] ∧ decode (.rsp 0x02#8) = .ok .stParam) :=
  ⟨⟨.inl rfl, rfl, rfl⟩, .inl rfl, rfl, rfl, rfl⟩

theorem witness_StepRefusesOtherWords :
    blockNext { loaded with hostq := [0xFFFFFF#24, 0x3F0001#24] } ∧ loaded.phase = .idle ∧
    decode (.hc 0xFFFFFF#24) = .error .badOp ∧ decode (.hc 0x3F0001#24) = .error .badArg :=
  ⟨.inl rfl, rfl, rfl, rfl⟩

theorem witness_OtherAgentsTouchTheirQueuesOnly :
    ({ loaded with turns := [.peerSend 0#8] } : State).turns = .peerSend 0#8 :: [] ∧
    ({ loaded with turns := [.peerTake 1] } : State).turns = .peerTake 1 :: [] ∧
    ({ loaded with turns := [.host 0x010000#24] } : State).turns = .host 0x010000#24 :: [] ∧
    (blockNext loaded ∧ loaded.phase = .idle ∧ loaded.hostq = []) := ⟨rfl, rfl, rfl, .inl rfl, rfl, rfl⟩

/-- The timer's two clauses, with the number of bytes one below and at the number asked for. -/
theorem witness_StepIsTheTurnThatIsDue :
    loaded.turns = [] ∧ ({ loaded with turns := [.block] } : State).turns = .block :: [] ∧
    ((busyAt .rxLen []).phase = .rxLen ∧ (busyAt .rxLen []).chIn = []) ∧
    (busyAt .rxStatus [0#8]).chIn ≠ [] ∧
    ([0xDE#8].length < (3#8).toNat - 1 ∧ (3#8).toNat - 1 ≤ [0xDE#8, 0xAD#8].length) := by decide

theorem witness_ReadsWaitForTheirBytes :
    ((busyAt .rxStatus []).phase = .rxStatus ∧ (busyAt .rxStatus []).chIn = []) ∧
    ((busyAt .rxBody [0xDE#8]).phase = .rxBody ∧
      (busyAt .rxBody [0xDE#8]).chIn.length < ({ busyAt .rxBody [0xDE#8] with rawLen := 3#8 } : State).rawLen.toNat - 1) ∧
    ((busyAt .rxLen [0#8]).phase = .rxLen ∧ (busyAt .rxLen [0#8]).chIn ≠ []) := by decide

theorem witness_HardwareResetInEveryPhase :
    resetNext { busyAt .rxBody [0xDE#8] with turns := [.rst] } ∧ resetNext { loaded with turns := [.rst, .block] } :=
  ⟨⟨[], rfl⟩, ⟨[.block], rfl⟩⟩

theorem witness_MeaningsStopOutsideTheirPhase :
    ((encode .nop).format = .hc ∧ (busyAt .tx []).phase ≠ .idle) ∧ ((encode .req).format = .req ∧ loaded.phase ≠ .tx) ∧
    ((encode .stOk).format = .rsp ∧ loaded.phase ≠ .rxStatus) := by decide

theorem witness_UnwrittenBufferBytesStop :
    (({ State.reset with phase := .tx, txlen := 5#8 } : State).phase = .tx ∧
      frameOf { State.reset with phase := .tx, txlen := 5#8 } = none) ∧
    (({ State.reset with rxvalid := true, dlen := 1#8 } : State).rxvalid = true ∧ (0#8).toNat < (1#8).toNat ∧
      Memory.read State.reset.rxbuf 0 = none) ∧
    (({ State.reset with phase := .verify, rawLen := 3#8 } : State).phase = .verify ∧
      bodyOf { State.reset with phase := .verify, rawLen := 3#8 } = none) := by decide

theorem witness_CrcIsLinear : [0x07#8, 0xDE#8].length = [0x00#8, 0x01#8].length := by decide

theorem witness_OneFlippedBitChangesTheCrc : 0 < 8 ∧ 7 < 8 := by decide

/-- V30, V32. -/
theorem witness_CrcIsSelfConsistent :
    [0x04#8, 0x11#8, 0x33#8, 0x43#8] = [0x04#8, 0x11#8] ++ crcEmit (crc16 [0x04#8, 0x11#8]) ∧
    [0x00#8, 0x00#8] = [] ++ crcEmit (crc16 []) := by decide +kernel

/-- The statements about one host operation whose hypotheses are the phase `IDLE` and, for the refusal, an argument with
an unused bit: CrcClrClearsTheRegister, CrcUpdFoldsOneByte, CrcEmitReturnsLowThenHigh, CrcVfySetsMatch,
PseudoCrc16ReturnsTheCrc, PseudoCheckComparesTheCrc, TxbClrEmptiesTheFrame, XferFlushEmptiesBothQueues, NopChangesNothing,
SysResetGivesTheResetValues; and the refusals of the other host operations. -/
theorem witness_host_operations :
    loaded.phase = .idle ∧ 1#16 ≠ 0#16 ∧ 0x8000#16 ≠ 0#16 ∧ highByte 0x0100#16 ≠ 0#8 ∧ highByte 0x8000#16 ≠ 0#8 := by decide

theorem witness_TxbPushAppendsOrIsRefused :
    ({ State.reset with txlen := 255#8 } : State).txlen = 255#8 ∧ ({ State.reset with txlen := 254#8 } : State).txlen ≠ 255#8 ∧
    State.reset.phase = .idle := by decide

theorem witness_PushedFrameIsTheFrame :
    State.reset.phase = .idle ∧ (List.replicate 255 0#8).length ≤ 255 ∧ ([] : List Byte).length ≤ 255 := by decide +kernel

/-- The admission check at 4, 5, 254 and 255 bytes. -/
theorem witness_XferExecAdmitsFiveTo254Bytes :
    (4#8).toNat < 5 ∧ (255#8).toNat + 1 > 255 ∧ (5 ≤ (5#8).toNat ∧ (5#8).toNat ≤ 254) ∧
    (5 ≤ (254#8).toNat ∧ (254#8).toNat ≤ 254) ∧ State.reset.phase = .idle := by decide

theorem witness_XferExecStartClearsTheLastResult :
    afterV80.phase = .idle ∧ 5 ≤ afterV80.txlen.toNat ∧ afterV80.txlen.toNat ≤ 254 := by decide

theorem witness_ReqSendsTheEnvelope :
    (busyAt .tx []).phase = .tx ∧
    Memory.readRange (busyAt .tx []).txbuf 0 (busyAt .tx []).txlen.toNat = some [0xA0#8, 0xA1#8, 0xA2#8, 0xA3#8, 0xA4#8] := by
  decide

/-- Each row of the bytes outside the contract, at its last byte. -/
theorem witness_StatusRowsComplete :
    (busyAt .rxStatus []).phase = .rxStatus ∧ (0x07#8).toNat = 0x04 + (3#2).toNat ∧ (0x0F#8).toNat = 0x08 + (7#3).toNat ∧
    (0x1F#8).toNat = 0x10 + (15#4).toNat ∧ (0x3F#8).toNat = 0x20 + (31#5).toNat ∧ (0x7F#8).toNat = 0x40 + (63#6).toNat ∧
    (0xFF#8).toNat = 0x80 + (127#7).toNat := by decide

theorem witness_StatusPhaseClassifiesTheByte :
    ((busyAt .rxStatus []).phase = .rxStatus ∧ (busyAt .rxStatus []).chIn = []) ∧
    (busyAt .rxStatus [0x03#8, 0x04#8]).chIn = 0x03#8 :: [0x04#8] := by decide

theorem witness_LengthPhaseChecksTheLengthByte :
    ((busyAt .rxLen []).phase = .rxLen ∧ (busyAt .rxLen []).chIn = []) ∧
    (busyAt .rxLen [0x02#8]).chIn = 0x02#8 :: [] ∧ (2#8).toNat < 3 ∧ ¬ (3#8).toNat < 3 := by decide

/-- One byte short of the body, and exactly the body. -/
theorem witness_BodyPhaseReadsExactlyTheBody :
    (({ busyAt .rxBody [0x80#8] with rawLen := 3#8 } : State).phase = .rxBody ∧
      ({ busyAt .rxBody [0x80#8] with rawLen := 3#8 } : State).chIn.length <
        ({ busyAt .rxBody [0x80#8] with rawLen := 3#8 } : State).rawLen.toNat - 1) ∧
    ({ busyAt .rxBody [0x80#8, 0x02#8] with rawLen := 3#8 } : State).rawLen.toNat - 1 ≤
      ({ busyAt .rxBody [0x80#8, 0x02#8] with rawLen := 3#8 } : State).chIn.length := by decide

/-- Both outcomes, and the smallest length byte. -/
theorem witness_VerifyPhaseComparesBothBytes :
    (verified.rawLen.toNat = [0xDE#8, 0xAD#8, 0xBE#8, 0xEF#8].length + 3 ∧
      Memory.readRange verified.rxbuf 0 (verified.rawLen.toNat - 1) =
        some ([0xDE#8, 0xAD#8, 0xBE#8, 0xEF#8] ++ [0xA4#8, 0x74#8]) ∧
      0xA4#8 = lowByte (crc16 [0x07#8, 0xDE#8, 0xAD#8, 0xBE#8, 0xEF#8]) ∧
      0x74#8 = highByte (crc16 [0x07#8, 0xDE#8, 0xAD#8, 0xBE#8, 0xEF#8])) ∧
    (readBody 0x03#8 0x80#8 0x02#8 0#8 0#8 0#8 0#8).phase = .verify ∧ (3#8).toNat = ([] : List Byte).length + 3 ∧
    Memory.readRange (readBody 0x03#8 0x80#8 0x02#8 0#8 0#8 0#8 0#8).rxbuf 0 ((3#8).toNat - 1) = some ([] ++ [0x80#8, 0x02#8]) := by
  decide +kernel

theorem witness_FlushPhaseCompletes : verified.phase = .flush ∧ 3 ≤ verified.rawLen.toNat := by decide

/-- Indices at and one below `DLEN`. -/
theorem witness_RxbRdReturnsDataOnly :
    afterV80.phase = .idle ∧ afterV80.dlen.toNat ≤ (4#8).toNat ∧ State.reset.rxvalid = false ∧
    (afterV80.rxvalid = true ∧ (3#8).toNat < afterV80.dlen.toNat ∧ Memory.read afterV80.rxbuf (3#8).toNat = some 0xEF#8) := by
  decide

theorem witness_SevenStepsAreThePseudocode :
    ({ loaded with hostq := [0x200000#24], chIn := [0#8, 3#8, 0x80#8, 2#8] } : State).turns = [] ∧ loaded.phase = .idle ∧
    decode (.hc 0x200000#24) = .ok .xferExec ∧ 5 ≤ loaded.txlen.toNat ∧ loaded.txlen.toNat ≤ 254 ∧
    frameOf loaded = some [0xA0#8, 0xA1#8, 0xA2#8, 0xA3#8, 0xA4#8] := by decide

/-- V81, with a stray byte behind it, and the largest response. -/
theorem witness_OkExactlyForAWellFormedResponse :
    goodResponse [] ++ [0x99#8] = [0x00#8, 0x03#8, 0x80#8, 0x02#8, 0x99#8] ∧ (List.replicate 252 0#8).length ≤ 252 := by decide +kernel

theorem witness_RegRdReturnsTheNumberedRegister :
    0x0B < (0x0C#8).toNat ∧ ¬ 0x0B < (0x0B#8).toNat ∧
    (0x0B#8, (0x74#8).toNat) ∈ [(0x0A#8, afterV80.vcrc.toNat % 256), (0x0B#8, afterV80.vcrc.toNat / 256)] ∧
    (0x02#8, (2#8).toNat) ∈ [(0x02#8, (if afterV80.matchFlag then 1 else 0) + (if afterV80.rxvalid then 2 else 0))] := by decide

theorem witness_RefusedOperationsChangeNothing :
    State.reset.phase = .idle ∧
    exec .xferExec State.reset = .next { State.reset with answer := some ⟨.frameShort, []⟩ } ∧ Ack.frameShort ≠ .done :=
  ⟨rfl, rfl, by decide⟩

/-! ### States that meet the invariants -/

/-- An exchange with the frame of the vectors meets the invariants when its phase's own records hold. -/
theorem busy_inv {s : State} (hp : s.phase ≠ .idle)
    (hs : s = { loaded with
      phase := s.phase, chIn := s.chIn, rawLen := s.rawLen, vcrc := s.vcrc, rxbuf := s.rxbuf, turns := s.turns })
    (hm : Memory.wf Config.rxbufCap s.rxbuf = true) (hr : phaseRecords s) : Inv s := by
  have hv : s.rxvalid = false := by rw [hs]; rfl
  have ht : s.resTag = .none := by rw [hs]; rfl
  have hc : s.resCode = 0#8 := by rw [hs]; rfl
  have hf : frameOf s = frameOf loaded := by rw [hs]; rfl
  have hb : s.txbuf = loaded.txbuf := by rw [hs]
  have hl : s.txlen = 5#8 := by rw [hs]; rfl
  exact
    { txbufForm := by rw [hb]; decide
      rxbufForm := hm
      frameWritten := ⟨_, hf⟩
      validIffOk := by simp [hv, ht]
      validData := fun h => by rw [hv] at h; cases h
      noDataLength := fun _ => by rw [hs]; rfl
      resultRow := by rw [ht, hc]; rfl
      causeAgrees := fun h => absurd h hp
      busyClear := fun _ => ⟨ht, hc, hv, by rw [hs]; rfl, by rw [hs]; rfl⟩
      busyFrame := fun _ => by rw [hl]; rfl
      phaseAgrees := hr }

theorem inv_tx : Inv (busyAt .tx []) := busy_inv (by decide) rfl rfl ⟨rfl, rfl, rfl⟩

theorem inv_rxStatus (input : List Byte) : Inv (busyAt .rxStatus input) :=
  busy_inv (fun h => by cases h) rfl rfl ⟨rfl, rfl, rfl⟩

theorem inv_rxLen (input : List Byte) : Inv (busyAt .rxLen input) :=
  busy_inv (fun h => by cases h) rfl rfl ⟨rfl, rfl, rfl⟩

theorem inv_rxBody : Inv { busyAt .rxBody [0x80#8] with rawLen := 3#8 } :=
  busy_inv (by decide) rfl rfl ⟨rfl, by decide, rfl⟩

theorem inv_verify : Inv (readBody 0x07#8 0xDE#8 0xAD#8 0xBE#8 0xEF#8 0xA4#8 0x75#8) :=
  busy_inv (by decide) rfl (by decide) ⟨rfl, by decide, rfl, _, rfl⟩

theorem verified_body : bodyVerified verified :=
  ⟨by decide, [0xDE#8, 0xAD#8, 0xBE#8, 0xEF#8, 0xA4#8, 0x74#8], by decide, by decide +kernel, by decide⟩

theorem inv_flush : Inv verified := busy_inv (by decide) rfl (by decide) ⟨rfl, verified_body⟩

/-- A state with a valid response, where every clause of the invariants has something to say. -/
theorem inv_afterV80 : Inv afterV80 where
  txbufForm := rfl
  rxbufForm := by decide
  frameWritten := ⟨_, rfl⟩
  validIffOk := by decide
  validData := fun _ => ⟨rfl, by decide, verified_body⟩
  noDataLength := fun h => by cases h
  resultRow := rfl
  causeAgrees := fun _ => .inr ⟨rfl, rfl⟩
  busyClear := fun h => absurd rfl h
  busyFrame := fun h => absurd rfl h
  phaseAgrees := trivial

theorem witness_EveryStepKeepsTheInvariants :
    Inv verified ∧ step verified = .next afterV80 := ⟨inv_flush, rfl⟩

theorem witness_NoStepFaults : Inv afterV80 ∧ Inv (busyAt .tx []) := ⟨inv_afterV80, inv_tx⟩

theorem witness_EveryExchangeEnds : Inv (busyAt .tx []) ∧ (busyAt .tx []).phase ≠ .idle := ⟨inv_tx, by decide⟩

/-- An exchange meets the hypotheses and ends in this step, showing `x`. -/
def endsWith (s : State) (x : ResTag × Byte × Cause) : Prop :=
  Inv s ∧ s.phase ≠ .idle ∧ ¬ resetNext s ∧
    (nextOf (step s)).map (fun t => (t.phase, t.resTag, t.resCode, t.cause)) = some (.idle, x)

theorem not_resetNext {s : State} (h : s.turns = []) : ¬ resetNext s := by
  rintro ⟨ts, ht⟩
  rw [h] at ht
  cases ht

/-- Each of the ten ways an exchange ends, at the boundary value of its condition. -/
theorem witness_ExchangesEndInOneRowOfTheCauses :
    endsWith verified (.ok, 0#8, .none) ∧
    endsWith (busyAt .rxStatus []) (.communicationError, 99#8, .statusTimeout) ∧
    endsWith (busyAt .rxStatus [0x01#8]) (.receiveError, 1#8, .statusNonzero) ∧
    endsWith (busyAt .rxStatus [0x02#8]) (.paramError, 2#8, .statusNonzero) ∧
    endsWith (busyAt .rxStatus [0x03#8]) (.executeError, 3#8, .statusNonzero) ∧
    endsWith (busyAt .rxStatus [0x04#8]) (.communicationError, 99#8, .statusUnknown) ∧
    endsWith (busyAt .rxLen []) (.communicationError, 99#8, .lenTimeout) ∧
    endsWith (busyAt .rxLen [0x02#8]) (.communicationError, 99#8, .lenBad) ∧
    endsWith { busyAt .rxBody [0x80#8] with rawLen := 3#8 } (.communicationError, 99#8, .bodyShort) ∧
    endsWith (readBody 0x07#8 0xDE#8 0xAD#8 0xBE#8 0xEF#8 0xA4#8 0x75#8) (.communicationError, 99#8, .crcMismatch) :=
  ⟨⟨inv_flush, by decide, not_resetNext rfl, by decide +kernel⟩,
   ⟨inv_rxStatus _, by decide, not_resetNext rfl, by decide +kernel⟩,
   ⟨inv_rxStatus _, by decide, not_resetNext rfl, by decide +kernel⟩,
   ⟨inv_rxStatus _, by decide, not_resetNext rfl, by decide +kernel⟩,
   ⟨inv_rxStatus _, by decide, not_resetNext rfl, by decide +kernel⟩,
   ⟨inv_rxStatus _, by decide, not_resetNext rfl, by decide +kernel⟩,
   ⟨inv_rxLen _, by decide, not_resetNext rfl, by decide +kernel⟩,
   ⟨inv_rxLen _, by decide, not_resetNext rfl, by decide +kernel⟩,
   ⟨inv_rxBody, by decide, not_resetNext rfl, by decide +kernel⟩,
   ⟨inv_verify, by decide, not_resetNext rfl, by decide +kernel⟩⟩

/-! ### Witnesses of the whole-machine rules -/

theorem witness_PhaseMovesAsTheTable :
    step verified = .next afterV80 ∧ ¬ resetNext verified ∧ afterV80.phase ≠ verified.phase :=
  ⟨rfl, not_resetNext rfl, by decide⟩

/-- A word held while busy, one presented while busy, and one taken. -/
theorem witness_PresentedWordsAreHeldWhileBusy :
    (nextOf (step { verified with hostq := [0#24] })).map State.hostq = some [0#24] ∧ verified.phase ≠ .idle ∧
    (nextOf (step { verified with turns := [.host 0#24] })).map State.hostq = some [0#24] ∧
    (nextOf (step { loaded with hostq := [0#24, 0x030000#24] })).map State.hostq = some [0x030000#24] ∧
    loaded.phase = .idle ∧ verified.turns = [] ∧ loaded.turns = [] := by decide

/-- Each register changes in some step. -/
theorem witness_CrcAndMatchHaveNoOtherWriters :
    (nextOf (step { loaded with hostq := [0x020004#24] })).map State.crc = some 0x80C3#16 ∧ loaded.crc ≠ 0x80C3#16 ∧
    (nextOf (step { loaded with hostq := [0x040000#24] })).map State.matchFlag = some true ∧ loaded.matchFlag ≠ true := by decide

theorem witness_FrameIsStableThroughAnExchange :
    (nextOf (step { loaded with hostq := [0x1100A5#24] })).map State.txlen = some 6#8 ∧ loaded.txlen ≠ 6#8 := by decide

/-- A step that sends, and one that does not. -/
theorem witness_OneEnvelopePerExchangeIsSent :
    (nextOf (step (busyAt .tx []))).map State.phase = some .rxStatus ∧
    (nextOf (step (busyAt .rxStatus [0#8]))).map State.phase = some .rxLen := by decide

/-- A flush in each of the two places, the three reads, the peer's two turns, and the write. -/
theorem witness_FlushHappensInTwoPlacesOnly :
    (nextOf (step { loaded with hostq := [0x220000#24], chIn := [2#8], chOutq := [0xFD#8] })).map
        (fun t => (t.chIn, t.chOutq)) = some ([], []) ∧
    (nextOf (step { verified with chOutq := [0xFD#8] })).map (fun t => (t.chIn, t.chOutq)) = some ([], []) ∧
    (nextOf (step (busyAt .rxStatus [3#8, 4#8]))).map State.chIn = some [4#8] ∧
    (nextOf (step (busyAt .rxLen [2#8, 0x11#8]))).map State.chIn = some [0x11#8] ∧
    (nextOf (step { busyAt .rxBody [0x80#8, 2#8, 9#8] with rawLen := 3#8 })).map State.chIn = some [9#8] ∧
    (nextOf (step { loaded with turns := [.peerSend 7#8] })).map State.chIn = some [7#8] ∧
    (nextOf (step { loaded with chOutq := [0xFD#8, 5#8], turns := [.peerTake 1] })).map State.chOutq = some [5#8] ∧
    (nextOf (step (busyAt .tx [2#8]))).map (fun t => (t.chIn, t.chOutq.length)) = some ([2#8], 7) := by decide

/-- The end state of V80 with other bytes where nothing is read. -/
def afterV80' : State :=
  { afterV80 with
    txbuf := afterV80.txbuf ++ [(5, 0x77#8)],
    rxbuf := [(0, 0xDE#8), (1, 0xAD#8), (2, 0xBE#8), (3, 0xEF#8), (4, 0x11#8), (9, 0x22#8)] }

theorem witness_UnspecifiedBufferBytesAreUnobservable :
    Inv afterV80 ∧ SameVisible afterV80 afterV80' ∧ step afterV80 = .next afterV80 ∧ afterV80' ≠ afterV80 :=
  ⟨inv_afterV80, ⟨rfl, by decide, fun _ => by decide, fun h => by simp [afterV80] at h⟩, rfl, by decide⟩

end Sys2Proof.Tests
end

section
/-! SUPPORT. What a step can do, said once: three relations, each tied to the model by an equivalence. `HostEffect` is
the meaning of an accepted host word (spec/43_system.md R114), `ExchangeStep` the block's turn while an exchange runs
(spec/42_rx_decoder.md R90 to R98), `StepEffect` the step of whichever agent is due (spec/20_memory.md R40). The proofs
about all steps are case analyses of these. -/

namespace Sys2Proof.Machine

open Sys2Proof.Safety

/-! ## The host operations -/

/-- The outcomes of a host operation that change nothing but the answer: the acknowledge and the returned bytes. -/
inductive HostAnswer (s : State) : Instr → Ack → List Byte → Prop where
  | nop : HostAnswer s .nop .done []
  | crcEmit : HostAnswer s .crcEmit .done (crcEmit s.crc)
  | txFull (b : Byte) (hl : s.txlen.toNat = 255) : HostAnswer s (.txbPush b) .txFull []
  | frameShort (hl : s.txlen.toNat < 5) : HostAnswer s .xferExec .frameShort []
  | frameLong (hl : 254 < s.txlen.toNat) : HostAnswer s .xferExec .frameLong []
  | rxIndex {i : Byte} (hr : rxReadable s i = false) : HostAnswer s (.rxbRd i) .rxIndex []
  | rxByte {i b : Byte} (hr : rxReadable s i = true) (hb : Memory.read s.rxbuf i.toNat = some b) :
      HostAnswer s (.rxbRd i) .done [b]
  | badReg {r : Byte} (hr : regRead s r = none) : HostAnswer s (.regRd r) .badReg []
  | register {r v : Byte} (hr : regRead s r = some v) : HostAnswer s (.regRd r) .done [v]

/-- What a host operation makes of the state in `IDLE`. -/
inductive HostEffect (s : State) : Instr → State → Prop where
  | answered {i : Instr} {a : Ack} {d : List Byte} (h : HostAnswer s i a d) : HostEffect s i (answerHost a d s)
  | crcClr : HostEffect s .crcClr (done [] { s with crc := 0#16 })
  | crcUpd (b : Byte) : HostEffect s (.crcUpd b) (done [] { s with crc := crcByte s.crc b })
  | crcVfy (w : Crc) : HostEffect s (.crcVfy w) (done [] { s with matchFlag := decide (s.crc = w) })
  | txbClr : HostEffect s .txbClr (done [] { s with txlen := 0#8 })
  | txbPush (b : Byte) (hl : s.txlen.toNat ≠ 255) :
      HostEffect s (.txbPush b)
        (done [] { s with txbuf := Memory.write s.txbuf s.txlen.toNat b, txlen := s.txlen + 1#8 })
  | start (hmin : 5 ≤ s.txlen.toNat) (hmax : s.txlen.toNat ≤ 254) : HostEffect s .xferExec (startExchange s)
  | xferFlush : HostEffect s .xferFlush (done [] (chFlush s))
  | sysReset : HostEffect s .sysReset (done [] (resetBlock s))

theorem hostEffect_of_exec {i : Instr} {s t : State} (hi : (encode i).format = .hc) (h : exec i s = .next t) :
    HostEffect s i t := by
  cases i with
  | nop => obtain ⟨-, rfl⟩ := exec_nop_next.1 h; exact .answered .nop
  | crcClr => obtain ⟨-, rfl⟩ := exec_crcClr_next.1 h; exact .crcClr
  | crcUpd b => obtain ⟨-, rfl⟩ := exec_crcUpd_next.1 h; exact .crcUpd b
  | crcEmit => obtain ⟨-, rfl⟩ := exec_crcEmit_next.1 h; exact .answered .crcEmit
  | crcVfy w => obtain ⟨-, rfl⟩ := exec_crcVfy_next.1 h; exact .crcVfy w
  | txbClr => obtain ⟨-, rfl⟩ := exec_txbClr_next.1 h; exact .txbClr
  | txbPush b =>
    obtain ⟨-, ⟨hl, rfl⟩ | ⟨hl, rfl⟩⟩ := exec_txbPush_next.1 h
    · exact .answered (.txFull b hl)
    · exact .txbPush b hl
  | xferExec =>
    obtain ⟨-, ⟨hl, rfl⟩ | ⟨hl, rfl⟩ | ⟨hmin, hmax, rfl⟩⟩ := exec_xferExec_next.1 h
    · exact .answered (.frameShort hl)
    · exact .answered (.frameLong hl)
    · exact .start hmin hmax
  | rxbRd k =>
    obtain ⟨-, ⟨hr, rfl⟩ | ⟨hr, b, hb, rfl⟩⟩ := exec_rxbRd_next.1 h
    · exact .answered (.rxIndex hr)
    · exact .answered (.rxByte hr hb)
  | xferFlush => obtain ⟨-, rfl⟩ := exec_xferFlush_next.1 h; exact .xferFlush
  | regRd r =>
    obtain ⟨-, ⟨hr, rfl⟩ | ⟨v, hr, rfl⟩⟩ := exec_regRd_next.1 h
    · exact .answered (.badReg hr)
    · exact .answered (.register hr)
  | sysReset => obtain ⟨-, rfl⟩ := exec_sysReset_next.1 h; exact .sysReset
  | _ => cases hi

theorem exec_of_hostAnswer {i : Instr} {a : Ack} {d : List Byte} {s : State} (hp : s.phase = .idle)
    (h : HostAnswer s i a d) : exec i s = .next (answerHost a d s) := by
  cases h with
  | nop => exact exec_nop_next.2 ⟨hp, rfl⟩
  | crcEmit => exact exec_crcEmit_next.2 ⟨hp, rfl⟩
  | txFull b hl => exact exec_txbPush_next.2 ⟨hp, .inl ⟨hl, rfl⟩⟩
  | frameShort hl => exact exec_xferExec_next.2 ⟨hp, .inl ⟨hl, rfl⟩⟩
  | frameLong hl => exact exec_xferExec_next.2 ⟨hp, .inr (.inl ⟨hl, rfl⟩)⟩
  | rxIndex hr => exact exec_rxbRd_next.2 ⟨hp, .inl ⟨hr, rfl⟩⟩
  | rxByte hr hb => exact exec_rxbRd_next.2 ⟨hp, .inr ⟨hr, _, hb, rfl⟩⟩
  | badReg hr => exact exec_regRd_next.2 ⟨hp, .inl ⟨hr, rfl⟩⟩
  | register hr => exact exec_regRd_next.2 ⟨hp, .inr ⟨_, hr, rfl⟩⟩

theorem exec_of_hostEffect {i : Instr} {s t : State} (hp : s.phase = .idle) (h : HostEffect s i t) :
    exec i s = .next t := by
  cases h with
  | answered ha => exact exec_of_hostAnswer hp ha
  | crcClr => exact exec_crcClr_next.2 ⟨hp, rfl⟩
  | crcUpd b => exact exec_crcUpd_next.2 ⟨hp, rfl⟩
  | crcVfy w => exact exec_crcVfy_next.2 ⟨hp, rfl⟩
  | txbClr => exact exec_txbClr_next.2 ⟨hp, rfl⟩
  | txbPush b hl => exact exec_txbPush_next.2 ⟨hp, .inr ⟨hl, rfl⟩⟩
  | start hmin hmax => exact exec_xferExec_next.2 ⟨hp, .inr (.inr ⟨hmin, hmax, rfl⟩)⟩
  | xferFlush => exact exec_xferFlush_next.2 ⟨hp, rfl⟩
  | sysReset => exact exec_sysReset_next.2 ⟨hp, rfl⟩

/-- In `IDLE` a host operation answers `t` exactly when `t` is its effect. -/
theorem exec_next_iff_hostEffect {i : Instr} {s t : State} (hi : (encode i).format = .hc) (hp : s.phase = .idle) :
    exec i s = .next t ↔ HostEffect s i t :=
  ⟨hostEffect_of_exec hi, exec_of_hostEffect hp⟩

/-! ## The status byte -/

/-- A status byte is one of the four the contract has, or lies outside it (R51). -/
theorem status_cases (b : Byte) : b = 0#8 ∨ b = 1#8 ∨ b = 2#8 ∨ b = 3#8 ∨ 4 ≤ b.toNat := by
  bv_omega

/-- Every row of the bytes outside the contract records the byte it stands for, as a local failure (R93). -/
theorem exec_unknown_status {i : Instr} {b : Byte} {s : State} (he : encode i = .rsp b) (hb : 4 ≤ b.toNat) :
    exec i s = statusUnknown b s := by
  cases i with
  | stUnknown04 ss | stUnknown08 ss | stUnknown10 ss | stUnknown20 ss | stUnknown40 ss | stUnknown80 ss =>
    obtain rfl := Encoded.rsp.inj he
    rfl
  | stOk | stRecv | stParam | stExec =>
    obtain rfl := Encoded.rsp.inj he
    exact absurd hb (by decide)
  | _ => cases he

theorem exec_decodeStatus_unknown {b : Byte} {s : State} (hp : s.phase = .rxStatus) (hb : 4 ≤ b.toNat) :
    exec (decodeStatus b) s = .next (failLocal .statusUnknown { s with rawStatus := b }) := by
  rw [exec_unknown_status (encode_decodeStatus b) hb, statusUnknown_next]
  exact ⟨hp, rfl⟩

theorem exec_decodeStatus_ok {s : State} (hp : s.phase = .rxStatus) :
    exec (decodeStatus 0#8) s = .next { s with rawStatus := 0#8, phase := .rxLen } := atPhase_of _ hp

/-- The status bytes by which the chip reports an error of its own, with the tag each is recorded as (R93). -/
def chipErrors : List (Byte × ResTag) := [(1#8, .receiveError), (2#8, .paramError), (3#8, .executeError)]

theorem exec_decodeStatus_chipError {b : Byte} {tag : ResTag} {s : State} (hp : s.phase = .rxStatus)
    (hb : (b, tag) ∈ chipErrors) :
    exec (decodeStatus b) s = .next (fail tag b .statusNonzero { s with rawStatus := b }) := by
  simp only [chipErrors, List.mem_cons, Prod.mk.injEq, List.not_mem_nil, or_false] at hb
  obtain ⟨rfl, rfl⟩ | ⟨rfl, rfl⟩ | ⟨rfl, rfl⟩ := hb <;> exact atPhase_of _ hp

/-! ## The phases of an exchange -/

/-- A read waits in one of the three reading phases, while bytes are missing (R31). -/
theorem readWaiting_iff {s : State} :
    readWaiting s = true ↔
      (s.phase = .rxStatus ∧ s.chIn = []) ∨ (s.phase = .rxLen ∧ s.chIn = []) ∨
        (s.phase = .rxBody ∧ s.chIn.length < s.rawLen.toNat - 1) := by
  obtain hp | hp | hp | hp | hp | hp | hp := phase_cases s <;> simp [readWaiting, pendingRead, hp]

/-- What the block's turn makes of the state while an exchange runs; `e` says whether the channel's timer has fired. -/
inductive ExchangeStep (e : Bool) (s : State) : State → Prop where
  | send {f : List Byte} (hp : s.phase = .tx) (hf : frameOf s = some f) :
      ExchangeStep e s { chWrite ([0xFD#8, s.txlen] ++ f) s with phase := .rxStatus }
  | wait (hw : readWaiting s = true) (he : e = false) : ExchangeStep e s s
  | statusTimeout (hp : s.phase = .rxStatus) (hin : s.chIn = []) (he : e = true) :
      ExchangeStep e s (failLocal .statusTimeout s)
  | statusOk {rest : List Byte} (hp : s.phase = .rxStatus) (hin : s.chIn = 0#8 :: rest) :
      ExchangeStep e s { s with chIn := rest, rawStatus := 0#8, phase := .rxLen }
  | chipError {b : Byte} {tag : ResTag} {rest : List Byte} (hp : s.phase = .rxStatus) (hin : s.chIn = b :: rest)
      (hb : (b, tag) ∈ chipErrors) :
      ExchangeStep e s (fail tag b .statusNonzero { s with chIn := rest, rawStatus := b })
  | statusUnknown {b : Byte} {rest : List Byte} (hp : s.phase = .rxStatus) (hin : s.chIn = b :: rest)
      (hb : 4 ≤ b.toNat) : ExchangeStep e s (failLocal .statusUnknown { s with chIn := rest, rawStatus := b })
  | lenTimeout (hp : s.phase = .rxLen) (hin : s.chIn = []) (he : e = true) :
      ExchangeStep e s (failLocal .lenTimeout s)
  | lenBad {l : Byte} {rest : List Byte} (hp : s.phase = .rxLen) (hin : s.chIn = l :: rest) (hl : l.toNat < 3) :
      ExchangeStep e s (failLocal .lenBad { s with chIn := rest, rawLen := l })
  | lenOk {l : Byte} {rest : List Byte} (hp : s.phase = .rxLen) (hin : s.chIn = l :: rest) (hl : 3 ≤ l.toNat) :
      ExchangeStep e s { s with chIn := rest, rawLen := l, phase := .rxBody }
  | bodyShort (hp : s.phase = .rxBody) (hl : s.chIn.length < s.rawLen.toNat - 1) (he : e = true) :
      ExchangeStep e s
        (failLocal .bodyShort { s with chIn := [], rxbuf := Memory.writeRange s.rxbuf 0 s.chIn })
  | bodyWhole (hp : s.phase = .rxBody) (hl : s.rawLen.toNat - 1 ≤ s.chIn.length) :
      ExchangeStep e s { s with
        chIn := s.chIn.drop (s.rawLen.toNat - 1),
        rxbuf := Memory.writeRange s.rxbuf 0 (s.chIn.take (s.rawLen.toNat - 1)), phase := .verify }
  | crcMatches {b : List Byte} (hp : s.phase = .verify) (hb : bodyOf s = some b)
      (hc : b.drop (s.rawLen.toNat - 3) = crcEmit (crc16 (s.rawLen :: b.take (s.rawLen.toNat - 3)))) :
      ExchangeStep e s { s with vcrc := crc16 (s.rawLen :: b.take (s.rawLen.toNat - 3)), phase := .flush }
  | crcMismatch {b : List Byte} (hp : s.phase = .verify) (hb : bodyOf s = some b)
      (hc : b.drop (s.rawLen.toNat - 3) ≠ crcEmit (crc16 (s.rawLen :: b.take (s.rawLen.toNat - 3)))) :
      ExchangeStep e s
        (failLocal .crcMismatch { s with vcrc := crc16 (s.rawLen :: b.take (s.rawLen.toNat - 3)) })
  | complete (hp : s.phase = .flush) : ExchangeStep e s (completeExchange s)

/-- A status byte that was read is classified as one of its three kinds (R93). -/
theorem exchangeStep_of_status {e : Bool} {b : Byte} {rest : List Byte} {s t : State} (hp : s.phase = .rxStatus)
    (hin : s.chIn = b :: rest) (h : exec (decodeStatus b) { s with chIn := rest } = .next t) : ExchangeStep e s t := by
  have chip {tag : ResTag} (hb : (b, tag) ∈ chipErrors) : ExchangeStep e s t := by
    rw [exec_decodeStatus_chipError (s := { s with chIn := rest }) hp hb, next_eq_next] at h
    exact h ▸ .chipError hp hin hb
  obtain rfl | rfl | rfl | rfl | hb := status_cases b
  · rw [exec_decodeStatus_ok (s := { s with chIn := rest }) hp, next_eq_next] at h
    exact h ▸ .statusOk hp hin
  · exact chip (tag := .receiveError) (by decide)
  · exact chip (tag := .paramError) (by decide)
  · exact chip (tag := .executeError) (by decide)
  · rw [exec_decodeStatus_unknown (s := { s with chIn := rest }) hp hb, next_eq_next] at h
    exact h ▸ .statusUnknown hp hin hb

theorem exchangeStep_of_blockTurn {e : Bool} {s t : State} (hb : s.phase ≠ .idle) (h : blockTurn e s = .next t) :
    ExchangeStep e s t := by
  obtain hp | hp | hp | hp | hp | hp | hp := phase_cases s
  · exact absurd hp hb
  · rw [blockTurn_tx hp] at h
    obtain ⟨-, f, hf, rfl⟩ := exec_req_next.1 h
    exact .send hp hf
  · rw [blockTurn_rxStatus hp] at h
    obtain ⟨hin, he, rfl⟩ | ⟨hin, he, rfl⟩ | ⟨b, rest, hin, hx⟩ := phaseRxStatus_next h
    · exact .wait (readWaiting_iff.2 (.inl ⟨hp, hin⟩)) he
    · exact .statusTimeout hp hin he
    · exact exchangeStep_of_status hp hin hx
  · rw [blockTurn_rxLen hp] at h
    obtain ⟨hin, he, rfl⟩ | ⟨hin, he, rfl⟩ | ⟨l, rest, hin, hl, rfl⟩ | ⟨l, rest, hin, hl, rfl⟩ := phaseRxLen_next h
    · exact .wait (readWaiting_iff.2 (.inr (.inl ⟨hp, hin⟩))) he
    · exact .lenTimeout hp hin he
    · exact .lenBad hp hin hl
    · exact .lenOk hp hin hl
  · rw [blockTurn_rxBody hp] at h
    obtain ⟨hl, he, rfl⟩ | ⟨hl, he, rfl⟩ | ⟨hl, rfl⟩ := phaseRxBody_next h
    · exact .wait (readWaiting_iff.2 (.inr (.inr ⟨hp, hl⟩))) he
    · exact .bodyShort hp hl he
    · exact .bodyWhole hp hl
  · rw [blockTurn_verify hp] at h
    obtain ⟨b, hbody, ⟨hc, rfl⟩ | ⟨hc, rfl⟩⟩ := phaseVerify_next h
    · exact .crcMatches hp hbody hc
    · exact .crcMismatch hp hbody hc
  · rw [blockTurn_flush hp, next_eq_next] at h
    exact h ▸ .complete hp

/-! Each phase computes what its row of `ExchangeStep` says. -/

theorem phaseRxStatus_cons {e : Bool} {b : Byte} {rest : List Byte} {s : State} (hin : s.chIn = b :: rest) :
    phaseRxStatus e s = exec (decodeStatus b) { s with chIn := rest } := by
  simp only [phaseRxStatus, chRead_one_cons hin]

theorem phaseRxLen_cons {e : Bool} {l : Byte} {rest : List Byte} {s : State} (hin : s.chIn = l :: rest) :
    phaseRxLen e s =
      if l.toNat < 3 then .next (failLocal .lenBad { s with chIn := rest, rawLen := l })
      else .next { s with chIn := rest, rawLen := l, phase := .rxBody } := by
  simp only [phaseRxLen, chRead_one_cons hin, Config.rspOverhead]

theorem blockTurn_wait {s : State} (hw : readWaiting s = true) : blockTurn false s = .next s := by
  obtain ⟨hp, hin⟩ | ⟨hp, hin⟩ | ⟨hp, hl⟩ := readWaiting_iff.1 hw
  · rw [blockTurn_rxStatus hp, phaseRxStatus, chRead_none.2 (by simp [hin])]
  · rw [blockTurn_rxLen hp, phaseRxLen, chRead_none.2 (by simp [hin])]
  · rw [blockTurn_rxBody hp, phaseRxBody, chRead_none.2 ⟨hl, rfl⟩]

theorem phaseRxStatus_timeout {s : State} (hin : s.chIn = []) :
    phaseRxStatus true s = .next (failLocal .statusTimeout s) := by
  have hs : { s with chIn := [] } = s := by rw [← hin]
  simp only [phaseRxStatus, chRead_one_short hin, hs]

theorem phaseRxLen_timeout {s : State} (hin : s.chIn = []) :
    phaseRxLen true s = .next (failLocal .lenTimeout s) := by
  have hs : { s with chIn := [] } = s := by rw [← hin]
  simp only [phaseRxLen, chRead_one_short hin, hs]

theorem phaseRxBody_short {s : State} (hl : s.chIn.length < s.rawLen.toNat - 1) :
    phaseRxBody true s =
      .next (failLocal .bodyShort { s with chIn := [], rxbuf := Memory.writeRange s.rxbuf 0 s.chIn }) := by
  simp only [phaseRxBody, chRead_some.2 ⟨.inr rfl, rfl, rfl⟩, List.take_of_length_le hl.le,
    List.drop_of_length_le hl.le, if_pos hl]

theorem phaseRxBody_whole {e : Bool} {s : State} (hl : s.rawLen.toNat - 1 ≤ s.chIn.length) :
    phaseRxBody e s =
      .next { s with
        chIn := s.chIn.drop (s.rawLen.toNat - 1),
        rxbuf := Memory.writeRange s.rxbuf 0 (s.chIn.take (s.rawLen.toNat - 1)), phase := .verify } := by
  have hlen : ¬ (s.chIn.take (s.rawLen.toNat - 1)).length < s.rawLen.toNat - 1 := by
    rw [List.length_take]; omega
  simp only [phaseRxBody, chRead_some.2 ⟨.inl hl, rfl, rfl⟩, if_neg hlen]

theorem phaseVerify_body {b : List Byte} {s : State} (hb : bodyOf s = some b) :
    phaseVerify s =
      if b.drop (s.rawLen.toNat - 3) = crcEmit (crc16 (s.rawLen :: b.take (s.rawLen.toNat - 3))) then
        .next { s with vcrc := crc16 (s.rawLen :: b.take (s.rawLen.toNat - 3)), phase := .flush }
      else .next (failLocal .crcMismatch { s with vcrc := crc16 (s.rawLen :: b.take (s.rawLen.toNat - 3)) }) := by
  simp only [phaseVerify, hb]

theorem blockTurn_of_exchangeStep {e : Bool} {s t : State} (h : ExchangeStep e s t) : blockTurn e s = .next t := by
  cases h with
  | send hp hf => rw [blockTurn_tx hp, exec_req_next]; exact ⟨hp, _, hf, rfl⟩
  | wait hw he => rw [he, blockTurn_wait hw]
  | statusTimeout hp hin he => rw [blockTurn_rxStatus hp, he, phaseRxStatus_timeout hin]
  | statusOk hp hin => rw [blockTurn_rxStatus hp, phaseRxStatus_cons hin]; exact exec_decodeStatus_ok hp
  | chipError hp hin hb => rw [blockTurn_rxStatus hp, phaseRxStatus_cons hin]; exact exec_decodeStatus_chipError hp hb
  | statusUnknown hp hin hb => rw [blockTurn_rxStatus hp, phaseRxStatus_cons hin]; exact exec_decodeStatus_unknown hp hb
  | lenTimeout hp hin he => rw [blockTurn_rxLen hp, he, phaseRxLen_timeout hin]
  | lenBad hp hin hl => rw [blockTurn_rxLen hp, phaseRxLen_cons hin, if_pos hl]
  | lenOk hp hin hl => rw [blockTurn_rxLen hp, phaseRxLen_cons hin, if_neg (by omega)]
  | bodyShort hp hl he => rw [blockTurn_rxBody hp, he, phaseRxBody_short hl]
  | bodyWhole hp hl => rw [blockTurn_rxBody hp, phaseRxBody_whole hl]
  | crcMatches hp hb hc => rw [blockTurn_verify hp, phaseVerify_body hb, if_pos hc]
  | crcMismatch hp hb hc => rw [blockTurn_verify hp, phaseVerify_body hb, if_neg hc]
  | complete hp => exact blockTurn_flush hp

/-- While an exchange runs the block's turn answers `t` exactly when `t` is the phase's row. -/
theorem blockTurn_next_iff_exchangeStep {e : Bool} {s t : State} (hb : s.phase ≠ .idle) :
    blockTurn e s = .next t ↔ ExchangeStep e s t :=
  ⟨exchangeStep_of_blockTurn hb, blockTurn_of_exchangeStep⟩

theorem ExchangeStep.busy {e : Bool} {s t : State} (h : ExchangeStep e s t) : s.phase ≠ .idle := by
  cases h with
  | wait hw he => obtain ⟨hp, -⟩ | ⟨hp, -⟩ | ⟨hp, -⟩ := readWaiting_iff.1 hw <;> simp [hp]
  | send hp | statusTimeout hp | statusOk hp | chipError hp | statusUnknown hp | lenTimeout hp | lenBad hp | lenOk hp
  | bodyShort hp | bodyWhole hp | crcMatches hp | crcMismatch hp | complete hp => simp [hp]

/-! ## `turnTaken` -/

@[simp] theorem turnTaken_crc (s : State) : (turnTaken s).crc = s.crc := rfl
@[simp] theorem turnTaken_matchFlag (s : State) : (turnTaken s).matchFlag = s.matchFlag := rfl
@[simp] theorem turnTaken_txbuf (s : State) : (turnTaken s).txbuf = s.txbuf := rfl
@[simp] theorem turnTaken_txlen (s : State) : (turnTaken s).txlen = s.txlen := rfl
@[simp] theorem turnTaken_rxbuf (s : State) : (turnTaken s).rxbuf = s.rxbuf := rfl
@[simp] theorem turnTaken_dlen (s : State) : (turnTaken s).dlen = s.dlen := rfl
@[simp] theorem turnTaken_rxvalid (s : State) : (turnTaken s).rxvalid = s.rxvalid := rfl
@[simp] theorem turnTaken_resTag (s : State) : (turnTaken s).resTag = s.resTag := rfl
@[simp] theorem turnTaken_resCode (s : State) : (turnTaken s).resCode = s.resCode := rfl
@[simp] theorem turnTaken_cause (s : State) : (turnTaken s).cause = s.cause := rfl
@[simp] theorem turnTaken_rawStatus (s : State) : (turnTaken s).rawStatus = s.rawStatus := rfl
@[simp] theorem turnTaken_rawLen (s : State) : (turnTaken s).rawLen = s.rawLen := rfl
@[simp] theorem turnTaken_vcrc (s : State) : (turnTaken s).vcrc = s.vcrc := rfl
@[simp] theorem turnTaken_phase (s : State) : (turnTaken s).phase = s.phase := rfl
@[simp] theorem turnTaken_chIn (s : State) : (turnTaken s).chIn = s.chIn := rfl
@[simp] theorem turnTaken_chOutq (s : State) : (turnTaken s).chOutq = s.chOutq := rfl
@[simp] theorem turnTaken_chSent (s : State) : (turnTaken s).chSent = s.chSent := rfl
@[simp] theorem turnTaken_hostq (s : State) : (turnTaken s).hostq = s.hostq := rfl
@[simp] theorem turnTaken_answer (s : State) : (turnTaken s).answer = s.answer := rfl
@[simp] theorem turnTaken_turns (s : State) : (turnTaken s).turns = s.turns.tail := rfl

/-! ## The step -/

/-- The block acts in this step, `e` saying whether the channel's timer has fired: the turn is its own, or no turn is
left, or the timer ends a read that waits. -/
def BlockActs (e : Bool) (s : State) : Prop :=
  (s.turns = [] ∧ e = true) ∨ (∃ ts, s.turns = .block :: ts ∧ e = false) ∨
    (∃ ts, s.turns = .timer :: ts ∧ readWaiting s = true ∧ e = true)

theorem step_of_blockActs {e : Bool} {s : State} (h : BlockActs e s) : step s = blockTurn e (turnTaken s) := by
  obtain ⟨ht, rfl⟩ | ⟨ts, ht, rfl⟩ | ⟨ts, ht, hw, rfl⟩ := h
  · have hs : turnTaken s = s := by rw [turnTaken, ht, List.tail_nil, ← ht]
    rw [step_nil ht, hs]
  · rw [step_cons ht, turnTaken, ht]; rfl
  · rw [step_cons ht, turnTaken, ht]; exact if_pos hw

/-- With the turn due to the block, it acts, whatever the timer did. -/
theorem blockActs_of_blockNext {s : State} (h : blockNext s) : ∃ e, BlockActs e s := by
  obtain ht | ⟨ts, ht⟩ := h
  · exact ⟨true, .inl ⟨ht, rfl⟩⟩
  · exact ⟨false, .inr (.inl ⟨ts, ht, rfl⟩)⟩

/-- In `IDLE` no read waits, so the block acts by its own turn only. -/
theorem blockNext_of_blockActs {e : Bool} {s : State} (h : BlockActs e s) (hp : s.phase = .idle) : blockNext s := by
  obtain ⟨ht, -⟩ | ⟨ts, ht, -⟩ | ⟨ts, -, hw, -⟩ := h
  · exact .inl ht
  · exact .inr ⟨ts, ht⟩
  · simp [readWaiting_iff, hp] at hw

/-- What one step makes of the state: the block in `IDLE` (three cases), the block in an exchange, the timer with no read
waiting, the host, the peer (two cases), the hardware reset. -/
inductive StepEffect (s : State) : State → Prop where
  | idle (hn : blockNext s) (hp : s.phase = .idle) (hq : s.hostq = []) : StepEffect s (turnTaken s)
  | refused {w : HostWord} {q : List HostWord} {err : DecodeRefusal} (hn : blockNext s) (hp : s.phase = .idle)
      (hq : s.hostq = w :: q) (hd : decode (.hc w) = .error err) :
      StepEffect s (refuse (ackOf err) { s with turns := s.turns.tail, hostq := q })
  | performed {w : HostWord} {q : List HostWord} {i : Instr} {t : State} (hn : blockNext s) (hp : s.phase = .idle)
      (hq : s.hostq = w :: q) (hd : decode (.hc w) = .ok i)
      (he : HostEffect { s with turns := s.turns.tail, hostq := q } i t) : StepEffect s t
  | exchange {e : Bool} {t : State} (ha : BlockActs e s) (hx : ExchangeStep e (turnTaken s) t) : StepEffect s t
  | timerSilent {ts : List Turn} (ht : s.turns = .timer :: ts) (hw : readWaiting s = false) :
      StepEffect s (turnTaken s)
  | present {w : HostWord} {ts : List Turn} (ht : s.turns = .host w :: ts) :
      StepEffect s { s with turns := s.turns.tail, hostq := s.hostq ++ [w] }
  | peerSend {b : Byte} {ts : List Turn} (ht : s.turns = .peerSend b :: ts) :
      StepEffect s { s with turns := s.turns.tail, chIn := s.chIn ++ [b] }
  | peerTake {n : Nat} {ts : List Turn} (ht : s.turns = .peerTake n :: ts) :
      StepEffect s { s with turns := s.turns.tail, chOutq := s.chOutq.drop n }
  | hardReset {ts : List Turn} (ht : s.turns = .rst :: ts) : StepEffect s (hardReset (turnTaken s))

theorem stepEffect_of_blockTurn {e : Bool} {s t : State} (ha : BlockActs e s)
    (h : blockTurn e (turnTaken s) = .next t) : StepEffect s t := by
  by_cases hp : s.phase = .idle
  · have hn := blockNext_of_blockActs ha hp
    cases hq : s.hostq with
    | nil =>
      rw [blockTurn_idle_nil (s := turnTaken s) hp hq, next_eq_next] at h
      exact h ▸ .idle hn hp hq
    | cons w q =>
      rw [blockTurn_idle_cons (s := turnTaken s) hp hq] at h
      cases hd : decode (.hc w) with
      | error err =>
        rw [acceptWord_error hd, next_eq_next] at h
        exact h ▸ .refused hn hp hq hd
      | ok i =>
        rw [acceptWord_ok hd] at h
        exact .performed hn hp hq hd (hostEffect_of_exec (decode_hc_hostOp hd).2 h)
  · exact .exchange ha ((blockTurn_next_iff_exchangeStep (s := turnTaken s) hp).1 h)

/-- The inversion of a step: whatever a step answers is one of the effects. -/
theorem stepEffect_of_step {s t : State} (h : step s = .next t) : StepEffect s t := by
  have acts {e : Bool} (ha : BlockActs e s) : StepEffect s t :=
    stepEffect_of_blockTurn ha (by rwa [← step_of_blockActs ha])
  obtain ⟨ht, -⟩ | ⟨ts, ht, -⟩ | ⟨ts, ht, hw, -⟩ | ⟨ts, ht, hw, rfl⟩ | ⟨ts, w, ht, rfl⟩ | ⟨ts, b, ht, rfl⟩ |
    ⟨ts, n, ht, rfl⟩ | ⟨ts, ht, rfl⟩ := step_next h
  · exact acts (.inl ⟨ht, rfl⟩)
  · exact acts (.inr (.inl ⟨ts, ht, rfl⟩))
  · exact acts (.inr (.inr ⟨ts, ht, hw, rfl⟩))
  · obtain rfl : s.turns.tail = ts := by rw [ht, List.tail_cons]
    exact .timerSilent ht hw
  · obtain rfl : s.turns.tail = ts := by rw [ht, List.tail_cons]
    exact .present ht
  · obtain rfl : s.turns.tail = ts := by rw [ht, List.tail_cons]
    exact .peerSend ht
  · obtain rfl : s.turns.tail = ts := by rw [ht, List.tail_cons]
    exact .peerTake ht
  · obtain rfl : s.turns.tail = ts := by rw [ht, List.tail_cons]
    exact .hardReset ht

theorem step_of_stepEffect {s t : State} (h : StepEffect s t) : step s = .next t := by
  cases h with
  | idle hn hp hq =>
    obtain ⟨e, ha⟩ := blockActs_of_blockNext hn
    rw [step_of_blockActs ha, blockTurn_idle_nil (s := turnTaken s) hp hq]
  | refused hn hp hq hd =>
    obtain ⟨e, ha⟩ := blockActs_of_blockNext hn
    rw [step_of_blockActs ha, blockTurn_idle_cons (s := turnTaken s) hp hq, acceptWord_error hd]
    rfl
  | performed hn hp hq hd he =>
    obtain ⟨e, ha⟩ := blockActs_of_blockNext hn
    rw [step_of_blockActs ha, blockTurn_idle_cons (s := turnTaken s) hp hq, acceptWord_ok hd]
    exact exec_of_hostEffect hp he
  | exchange ha hx => rw [step_of_blockActs ha, blockTurn_of_exchangeStep hx]
  | timerSilent ht hw => rw [step_cons ht, turnTaken, ht]; exact if_neg (Bool.eq_false_iff.1 hw)
  | present ht | peerSend ht | peerTake ht => rw [step_cons ht, ht]; rfl
  | hardReset ht => rw [step_cons ht, turnTaken, ht]; rfl

/-- A step answers `t` exactly when `t` is its effect. -/
theorem step_next_iff_stepEffect {s t : State} : step s = .next t ↔ StepEffect s t :=
  ⟨stepEffect_of_step, step_of_stepEffect⟩

end Sys2Proof.Machine
end

section
/-! SUPPORT. The invariants of spec/10_state.md R24 hold after reset and are kept by every step: one lemma per way the
state can move, then a case analysis of `StepEffect`. -/

namespace Sys2Proof.Safety

open Sys2Proof.Machine

/-! ## Moves that the invariants do not see -/

/-- `u` is `s` but for what the invariants do not see, or see while an exchange runs only: `CRC`, `MATCH`, the channel,
the host's words, the schedule, and the answer. -/
def SameButUnseen (s u : State) : Prop :=
  u = { s with
    crc := u.crc, matchFlag := u.matchFlag, chIn := u.chIn, chOutq := u.chOutq, chSent := u.chSent, hostq := u.hostq,
    turns := u.turns, answer := u.answer }

theorem Inv.unseen {s u : State} (h : Inv s) (hu : SameButUnseen s u) (ha : s.phase = .idle ∨ u.answer = s.answer) :
    Inv u := by
  rw [hu]
  exact
    { txbufForm := h.txbufForm
      rxbufForm := h.rxbufForm
      frameWritten := h.frameWritten
      validIffOk := h.validIffOk
      validData := h.validData
      noDataLength := h.noDataLength
      resultRow := h.resultRow
      causeAgrees := h.causeAgrees
      busyClear := fun hb => by
        obtain ⟨htag, hcode, hvalid, hcause, hanswer⟩ := h.busyClear hb
        exact ⟨htag, hcode, hvalid, hcause, (ha.resolve_left hb).trans hanswer⟩
      busyFrame := h.busyFrame
      phaseAgrees := h.phaseAgrees }

theorem Inv.turnTaken {s : State} (h : Inv s) : Inv (turnTaken s) := h.unseen rfl (.inr rfl)

/-! ## Reset -/

theorem inv_reset : Inv State.reset where
  txbufForm := State.reset_txbuf_wf
  rxbufForm := State.reset_rxbuf_wf
  frameWritten := ⟨[], rfl⟩
  validIffOk := by decide
  validData := fun h => by cases h
  noDataLength := fun _ => rfl
  resultRow := rfl
  causeAgrees := fun _ => .inl ⟨rfl, rfl, rfl, rfl⟩
  busyClear := fun hb => absurd rfl hb
  busyFrame := fun hb => absurd rfl hb
  phaseAgrees := trivial

theorem inv_resetBlock (s : State) : Inv (resetBlock s) :=
  inv_reset.unseen rfl (.inl rfl)

theorem inv_hardReset (s : State) : Inv (hardReset s) := (inv_resetBlock s).unseen rfl (.inl rfl)

/-- Settles O50: every clause speaks of registers with the values of R25. -/
theorem invariantsHoldAtReset : Obligations.InvariantsHoldAtReset := inv_reset

/-! ## The host operations -/

/-- In `IDLE` the frame may become any frame that has been written inside the buffer. -/
theorem Inv.withFrame {s u : State} (h : Inv s) (hp : s.phase = .idle)
    (hu : u = { s with txbuf := u.txbuf, txlen := u.txlen, answer := u.answer })
    (hm : Memory.wf Config.txbufCap u.txbuf = true) (hf : ∃ f, frameOf u = some f) : Inv u := by
  have ha : Inv { s with answer := u.answer } := h.unseen rfl (.inl hp)
  rw [hu] at hf ⊢
  exact { ha with txbufForm := hm, frameWritten := hf, busyFrame := fun hb => absurd hp hb }

/-- A byte that does not fill the last index counts itself. -/
theorem toNat_add_one {n : Byte} (h : n.toNat ≠ 255) : (n + 1#8).toNat = n.toNat + 1 := by
  have := n.isLt
  rw [BitVec.toNat_add, BitVec.toNat_ofNat]
  omega

/-- One byte written behind a range that has been written makes a longer such range. -/
theorem readRange_push {m : Memory} {n : Nat} {f : List Byte} (b : Byte) (h : Memory.readRange m 0 n = some f) :
    Memory.readRange (Memory.write m n b) 0 (n + 1) = some (f ++ [b]) := by
  obtain ⟨hl, hr⟩ := (Memory.readRange_eq_some m 0 n f).1 h
  refine (Memory.readRange_eq_some _ 0 (n + 1) _).2 ⟨by simp [hl], fun k hk => ?_⟩
  obtain hk | rfl := Nat.lt_succ_iff_lt_or_eq.1 hk
  · rw [Memory.read_write_other _ _ (by omega), hr k hk, List.getElem?_append_left (by omega)]
  · rw [Nat.zero_add, Memory.read_write_same, ← hl, List.getElem?_concat_length]

theorem inv_startExchange {s : State} (h : Inv s) (hmin : 5 ≤ s.txlen.toNat) (hmax : s.txlen.toNat ≤ 254) :
    Inv (startExchange s) where
  txbufForm := h.txbufForm
  rxbufForm := h.rxbufForm
  frameWritten := h.frameWritten
  validIffOk := by simp
  validData := fun hv => by cases hv
  noDataLength := fun _ => rfl
  resultRow := rfl
  causeAgrees := fun hi => by cases hi
  busyClear := fun _ => ⟨rfl, rfl, rfl, rfl, rfl⟩
  busyFrame := fun _ => by simp [frameLengthOk, Config.execMinFrame, Config.execMaxFrame, hmin, hmax]
  phaseAgrees := ⟨rfl, rfl, rfl⟩

/-- A host operation keeps the invariants. -/
theorem inv_of_hostEffect {s t : State} {i : Instr} (he : HostEffect s i t) (hp : s.phase = .idle) (h : Inv s) :
    Inv t := by
  cases he with
  | answered | crcClr | crcUpd | crcVfy | xferFlush => exact h.unseen rfl (.inl hp)
  | txbClr => exact h.withFrame hp rfl h.txbufForm ⟨[], rfl⟩
  | txbPush b hl =>
    obtain ⟨f, hf⟩ := h.frameWritten
    have hlt : s.txlen.toNat < Config.txbufCap := by have := s.txlen.isLt; simp only [Config.txbufCap]; omega
    have hf' := readRange_push b hf
    rw [← toNat_add_one hl] at hf'
    exact h.withFrame hp rfl (Memory.wf_write b h.txbufForm hlt) ⟨_, hf'⟩
  | start hmin hmax => exact inv_startExchange h hmin hmax
  | sysReset => exact (inv_resetBlock s).unseen rfl (.inl rfl)

/-! ## The phases of an exchange -/

/-- Before the length byte is accepted nothing is recorded of the response (R91). -/
theorem Inv.beforeLength {s : State} (h : Inv s) (hp : s.phase = .tx ∨ s.phase = .rxStatus ∨ s.phase = .rxLen) :
    s.rawStatus = 0#8 ∧ s.rawLen = 0#8 ∧ s.vcrc = 0#16 := by
  obtain hp | hp | hp := hp <;> simpa only [phaseRecords, hp] using h.phaseAgrees

theorem Inv.atBody {s : State} (h : Inv s) (hp : s.phase = .rxBody) :
    s.rawStatus = 0#8 ∧ 3 ≤ s.rawLen.toNat ∧ s.vcrc = 0#16 := by
  simpa only [phaseRecords, hp] using h.phaseAgrees

theorem Inv.atVerify {s : State} (h : Inv s) (hp : s.phase = .verify) :
    s.rawStatus = 0#8 ∧ 3 ≤ s.rawLen.toNat ∧ s.vcrc = 0#16 ∧ ∃ b, bodyOf s = some b := by
  simpa only [phaseRecords, hp] using h.phaseAgrees

theorem Inv.atFlush {s : State} (h : Inv s) (hp : s.phase = .flush) : s.rawStatus = 0#8 ∧ bodyVerified s := by
  simpa only [phaseRecords, hp] using h.phaseAgrees

/-- `u` is `s` but for what the phases write before the exchange ends: the channel, `RXBUF`, `RAWSTATUS`, `RAWLEN`,
`VCRC` and `PHASE` (R92 to R97). -/
def SameButReceived (s u : State) : Prop :=
  u = { s with
    chIn := u.chIn, chOutq := u.chOutq, chSent := u.chSent, rxbuf := u.rxbuf, rawStatus := u.rawStatus,
    rawLen := u.rawLen, vcrc := u.vcrc, phase := u.phase }

/-- A running exchange goes on to a phase whose records hold. -/
theorem Inv.goesOn {s u : State} (h : Inv s) (hb : s.phase ≠ .idle) (hu : SameButReceived s u)
    (hm : Memory.wf Config.rxbufCap u.rxbuf = true) (hub : u.phase ≠ .idle) (hr : phaseRecords u) : Inv u := by
  obtain ⟨htag, hcode, hvalid, hcause, hanswer⟩ := h.busyClear hb
  rw [hu]
  exact
    { txbufForm := h.txbufForm
      rxbufForm := hm
      frameWritten := h.frameWritten
      validIffOk := h.validIffOk
      validData := fun hv => absurd (hvalid.symm.trans hv) (by decide)
      noDataLength := h.noDataLength
      resultRow := h.resultRow
      causeAgrees := fun hi => absurd hi hub
      busyClear := fun _ => ⟨htag, hcode, hvalid, hcause, hanswer⟩
      busyFrame := fun _ => h.busyFrame hb
      phaseAgrees := hu ▸ hr }

/-- A running exchange fails with a row of the tables of R15 and R16. -/
theorem Inv.fails {s u : State} {tag : ResTag} {code : Byte} {cause : Cause} (h : Inv s) (hb : s.phase ≠ .idle)
    (hu : SameButReceived s u) (hm : Memory.wf Config.rxbufCap u.rxbuf = true) (htag : tag ≠ .ok)
    (hrow : resRow tag code = true) (hc : causeRecords (fail tag code cause u)) : Inv (fail tag code cause u) := by
  obtain ⟨-, -, hvalid, -, -⟩ := h.busyClear hb
  rw [hu] at hc ⊢
  exact
    { txbufForm := h.txbufForm
      rxbufForm := hm
      frameWritten := h.frameWritten
      validIffOk := ⟨fun hv => absurd (hvalid.symm.trans hv) (by decide), fun ht => absurd ht htag⟩
      validData := fun hv => absurd (hvalid.symm.trans hv) (by decide)
      noDataLength := h.noDataLength
      resultRow := hrow
      causeAgrees := fun _ => hc
      busyClear := fun hi => absurd rfl hi
      busyFrame := fun hi => absurd rfl hi
      phaseAgrees := trivial }

/-- A verified exchange ends in success. -/
theorem Inv.completes {s : State} (h : Inv s) (hp : s.phase = .flush) : Inv (completeExchange s) := by
  have hb : s.phase ≠ .idle := by simp [hp]
  obtain ⟨-, -, -, hcause, -⟩ := h.busyClear hb
  obtain ⟨hstatus, hbody⟩ := h.atFlush hp
  exact
    { txbufForm := h.txbufForm
      rxbufForm := h.rxbufForm
      frameWritten := h.frameWritten
      validIffOk := by simp
      validData := fun _ => ⟨hcause, rfl, hbody⟩
      noDataLength := fun hv => by cases hv
      resultRow := rfl
      causeAgrees := fun _ => by
        simp only [causeRecords, completeExchange_cause, hcause]
        exact .inr ⟨rfl, hstatus⟩
      busyClear := fun hi => absurd rfl hi
      busyFrame := fun hi => absurd rfl hi
      phaseAgrees := trivial }

/-- What arrived for a body fits `RXBUF`: a body has at most 254 bytes (R14). -/
theorem wf_writeBody {m : Memory} {l : Byte} {b : List Byte} (hm : Memory.wf Config.rxbufCap m = true)
    (hb : b.length ≤ l.toNat - 1) : Memory.wf Config.rxbufCap (Memory.writeRange m 0 b) = true := by
  have := l.isLt
  exact Memory.wf_writeRange hm (by simp only [Config.rxbufCap]; omega)

/-- The tags of the chip's own errors stand in the table of R15 with their status byte as the code. -/
theorem chipErrors_row {b : Byte} {tag : ResTag} (h : (b, tag) ∈ chipErrors) :
    (tag = .receiveError ∨ tag = .paramError ∨ tag = .executeError) ∧ tag ≠ .ok ∧ resRow tag b = true := by
  simp only [chipErrors, List.mem_cons, Prod.mk.injEq, List.not_mem_nil, or_false] at h
  obtain ⟨rfl, rfl⟩ | ⟨rfl, rfl⟩ | ⟨rfl, rfl⟩ := h <;> simp [resRow]

/-- A phase of an exchange keeps the invariants. -/
theorem Inv.exchangeStep {s t : State} {e : Bool} (h : Inv s) (hx : ExchangeStep e s t) : Inv t := by
  have hb := hx.busy
  have hm := h.rxbufForm
  cases hx with
  | wait hw he => exact h
  | send hp hf =>
    exact h.goesOn hb rfl hm (by simp) (h.beforeLength (.inl hp))
  | statusTimeout hp hin he =>
    exact h.fails hb rfl hm (by decide) rfl ⟨rfl, h.beforeLength (.inr (.inl hp))⟩
  | statusOk hp hin =>
    obtain ⟨-, hlen, hcrc⟩ := h.beforeLength (.inr (.inl hp))
    exact h.goesOn hb rfl hm (by simp) ⟨rfl, hlen, hcrc⟩
  | chipError hp hin hbyte =>
    obtain ⟨-, hlen, hcrc⟩ := h.beforeLength (.inr (.inl hp))
    obtain ⟨htags, htag, hrow⟩ := chipErrors_row hbyte
    exact h.fails hb rfl hm htag hrow ⟨htags, rfl, hlen, hcrc⟩
  | statusUnknown hp hin hbyte =>
    obtain ⟨-, hlen, hcrc⟩ := h.beforeLength (.inr (.inl hp))
    exact h.fails hb rfl hm (by decide) rfl ⟨rfl, hbyte, hlen, hcrc⟩
  | lenTimeout hp hin he =>
    exact h.fails hb rfl hm (by decide) rfl ⟨rfl, h.beforeLength (.inr (.inr hp))⟩
  | lenBad hp hin hl =>
    obtain ⟨hstatus, -, hcrc⟩ := h.beforeLength (.inr (.inr hp))
    exact h.fails hb rfl hm (by decide) rfl ⟨rfl, hstatus, hl, hcrc⟩
  | lenOk hp hin hl =>
    obtain ⟨hstatus, -, hcrc⟩ := h.beforeLength (.inr (.inr hp))
    exact h.goesOn hb rfl hm (by simp) ⟨hstatus, hl, hcrc⟩
  | bodyShort hp hl he =>
    exact h.fails hb rfl (wf_writeBody hm hl.le) (by decide) rfl ⟨rfl, h.atBody hp⟩
  | bodyWhole hp hl =>
    obtain ⟨hstatus, hlen, hcrc⟩ := h.atBody hp
    have htake : (s.chIn.take (s.rawLen.toNat - 1)).length = s.rawLen.toNat - 1 := List.length_take_of_le hl
    have hbody := Memory.readRange_writeRange s.rxbuf 0 (s.chIn.take (s.rawLen.toNat - 1))
    rw [htake] at hbody
    exact h.goesOn hb rfl (wf_writeBody hm htake.le) (by simp) ⟨hstatus, hlen, hcrc, _, hbody⟩
  | crcMatches hp hbody hc =>
    obtain ⟨hstatus, hlen, -, -⟩ := h.atVerify hp
    exact h.goesOn hb rfl hm (by simp) ⟨hstatus, hlen, _, hbody, rfl, hc⟩
  | crcMismatch hp hbody hc =>
    obtain ⟨hstatus, hlen, -, -⟩ := h.atVerify hp
    exact h.fails hb rfl hm (by decide) rfl ⟨rfl, hstatus, hlen⟩
  | complete hp => exact h.completes hp

/-- Every effect of a step, the other agents' included, keeps the invariants. -/
theorem Inv.stepEffect {s t : State} (h : Inv s) (hs : StepEffect s t) : Inv t := by
  cases hs with
  | idle | timerSilent => exact h.turnTaken
  | refused hn hp => exact h.unseen rfl (.inl hp)
  | performed hn hp hq hd he => exact inv_of_hostEffect he hp (h.unseen rfl (.inr rfl))
  | exchange ha hx => exact h.turnTaken.exchangeStep hx
  | present | peerSend | peerTake => exact h.unseen rfl (.inr rfl)
  | hardReset => exact inv_hardReset _

/-- Settles O51, by cases on what the step can do. -/
theorem everyStepKeepsTheInvariants : Obligations.EveryStepKeepsTheInvariants :=
  fun _ _ h hs => h.stepEffect (step_next_iff_stepEffect.1 hs)

end Sys2Proof.Safety
end

section
/-! SUPPORT. Buffer bytes that hold no value are unobservable (spec/10_state.md R13, R14, R25): two states that differ in
such bytes only have the same effects, up to such bytes. The two states are `s` and `withBuffers tx rx s`. -/

namespace Sys2Proof.Safety

open Sys2Proof.Machine

/-- The state with other contents of the two buffers. -/
def withBuffers (tx rx : Memory) (s : State) : State := { s with txbuf := tx, rxbuf := rx }

theorem SameVisible.eq_withBuffers {s t : State} (h : SameVisible s t) : ∃ tx rx, t = withBuffers tx rx s :=
  ⟨t.txbuf, t.rxbuf, h.rest⟩

theorem SameVisible.refl (s : State) : SameVisible s s :=
  ⟨rfl, fun _ _ => rfl, fun _ _ _ => rfl, fun _ _ _ => rfl⟩

/-! ## What keeps two states alike -/

section
variable {s s' : State} {tx rx : Memory}

/-- A move that leaves the buffers, their lengths and the phase as they are. -/
theorem SameVisible.unseen (h : SameVisible s (withBuffers tx rx s)) (hs : SameButUnseen s s') :
    SameVisible s' (withBuffers tx rx s') := by
  rw [hs]
  exact ⟨rfl, h.frame, h.data, h.body⟩

/-- A move to a state in which `RXBUF` holds no value for any operation. -/
theorem SameVisible.forgetResponse {rx' : Memory} (h : SameVisible s (withBuffers tx rx s)) (hb : s'.txbuf = s.txbuf)
    (hl : s'.txlen = s.txlen) (hv : s'.rxvalid = false) (hp : s'.phase ≠ .verify ∧ s'.phase ≠ .flush) :
    SameVisible s' (withBuffers tx rx' s') where
  rest := rfl
  frame := by rw [hb, hl]; exact h.frame
  data := fun hvalid => absurd (hv.symm.trans hvalid) (by decide)
  body := fun hphase => absurd hphase (not_or.2 hp)

theorem frameOf_withBuffers (h : SameVisible s (withBuffers tx rx s)) : frameOf (withBuffers tx rx s) = frameOf s :=
  Memory.readRange_congr fun k hk => h.frame (0 + k) (by rwa [Nat.zero_add])

theorem bodyOf_withBuffers (h : SameVisible s (withBuffers tx rx s)) (hp : s.phase = .verify) :
    bodyOf (withBuffers tx rx s) = bodyOf s :=
  Memory.readRange_congr fun k hk => h.body (.inl hp) (0 + k) (by rwa [Nat.zero_add])

/-! ## The host operations -/

/-- The host is answered alike: `RXB.RD` reads data of a valid response only, and `REG.RD` reads no buffer. -/
theorem hostAnswer_withBuffers {i : Instr} {a : Ack} {d : List Byte} (h : SameVisible s (withBuffers tx rx s))
    (ha : HostAnswer s i a d) : HostAnswer (withBuffers tx rx s) i a d := by
  cases ha with
  | nop => exact .nop
  | crcEmit => exact .crcEmit
  | txFull b hl => exact .txFull b hl
  | frameShort hl => exact .frameShort hl
  | frameLong hl => exact .frameLong hl
  | rxIndex hr => exact .rxIndex hr
  | rxByte hr hb =>
    obtain ⟨hvalid, hi⟩ := rxReadable_iff.1 hr
    exact .rxByte hr ((h.data hvalid _ hi).trans hb)
  | badReg hr => exact .badReg hr
  | register hr => exact .register hr

/-- Pushing a byte on two frames that read alike. -/
theorem sameVisible_push (b : Byte) (hp : s.phase = .idle) (hl : s.txlen.toNat ≠ 255)
    (h : SameVisible s (withBuffers tx rx s)) :
    SameVisible
      (done [] { s with txbuf := Memory.write s.txbuf s.txlen.toNat b, txlen := s.txlen + 1#8 })
      (done [] { s with txbuf := Memory.write tx s.txlen.toNat b, txlen := s.txlen + 1#8, rxbuf := rx }) where
  rest := rfl
  frame := fun i hi => by
    simp only [done_txlen, toNat_add_one hl] at hi
    simp only [done_txbuf, Memory.read_write]
    split
    · rfl
    · exact h.frame i (by omega)
  data := h.data
  body := fun hphase => by simp [hp] at hphase

theorem hostEffect_withBuffers {i : Instr} (he : HostEffect s i s') (hp : s.phase = .idle)
    (h : SameVisible s (withBuffers tx rx s)) : ∃ t', HostEffect (withBuffers tx rx s) i t' ∧ SameVisible s' t' := by
  cases he with
  | answered ha => exact ⟨_, .answered (hostAnswer_withBuffers h ha), h.unseen rfl⟩
  | crcClr => exact ⟨_, .crcClr, h.unseen rfl⟩
  | crcUpd b => exact ⟨_, .crcUpd b, h.unseen rfl⟩
  | crcVfy w => exact ⟨_, .crcVfy w, h.unseen rfl⟩
  | xferFlush => exact ⟨_, .xferFlush, h.unseen rfl⟩
  | txbClr => exact ⟨_, .txbClr, rfl, fun i hi => absurd hi (Nat.not_lt_zero i), h.data, h.body⟩
  | txbPush b hl => exact ⟨_, .txbPush b hl, sameVisible_push b hp hl h⟩
  | start hmin hmax => exact ⟨_, .start hmin hmax, h.forgetResponse rfl rfl rfl (by simp)⟩
  | sysReset => exact ⟨_, .sysReset, .refl _⟩

/-! ## The phases of an exchange -/

/-- The body that was just read is stored alike, whatever stood in `RXBUF`. -/
theorem sameVisible_storeBody {b : List Byte} (h : SameVisible s (withBuffers tx rx s)) (hv : s.rxvalid = false)
    (hb : b.length = s.rawLen.toNat - 1) (input : List Byte) :
    SameVisible
      { s with chIn := input, rxbuf := Memory.writeRange s.rxbuf 0 b, phase := .verify }
      { s with chIn := input, txbuf := tx, rxbuf := Memory.writeRange rx 0 b, phase := .verify } where
  rest := rfl
  frame := h.frame
  data := fun hvalid => absurd (hv.symm.trans hvalid) (by decide)
  body := fun _ i hi => by
    have hin : 0 ≤ i ∧ i < 0 + b.length := ⟨Nat.zero_le i, by rw [Nat.zero_add, hb]; exact hi⟩
    rw [Memory.read_writeRange, Memory.read_writeRange, if_pos hin, if_pos hin]

/-- The data that is published is part of the body that was read. -/
theorem sameVisible_complete (h : SameVisible s (withBuffers tx rx s)) (hp : s.phase = .flush)
    (hl : 3 ≤ s.rawLen.toNat) : SameVisible (completeExchange s) (completeExchange (withBuffers tx rx s)) where
  rest := rfl
  frame := h.frame
  data := fun _ i hi => by
    have hd : (s.rawLen - 3#8).toNat = s.rawLen.toNat - 3 := BitVec.toNat_sub_of_le hl
    rw [completeExchange_dlen, hd] at hi
    exact h.body (.inr hp) i (by omega)
  body := fun hphase => by simp at hphase

theorem exchangeStep_withBuffers {e : Bool} (hi : Inv s) (h : SameVisible s (withBuffers tx rx s))
    (hx : ExchangeStep e s s') : ∃ t', ExchangeStep e (withBuffers tx rx s) t' ∧ SameVisible s' t' := by
  obtain ⟨-, -, hvalid, -, -⟩ := hi.busyClear hx.busy
  cases hx with
  | send hp hf =>
    exact ⟨_, .send hp ((frameOf_withBuffers h).trans hf), h.forgetResponse rfl rfl hvalid (by simp)⟩
  | wait hw he => exact ⟨_, .wait hw he, h⟩
  | statusTimeout hp hin he => exact ⟨_, .statusTimeout hp hin he, h.forgetResponse rfl rfl hvalid (by simp)⟩
  | statusOk hp hin => exact ⟨_, .statusOk hp hin, h.forgetResponse rfl rfl hvalid (by simp)⟩
  | chipError hp hin hb => exact ⟨_, .chipError hp hin hb, h.forgetResponse rfl rfl hvalid (by simp)⟩
  | statusUnknown hp hin hb => exact ⟨_, .statusUnknown hp hin hb, h.forgetResponse rfl rfl hvalid (by simp)⟩
  | lenTimeout hp hin he => exact ⟨_, .lenTimeout hp hin he, h.forgetResponse rfl rfl hvalid (by simp)⟩
  | lenBad hp hin hl => exact ⟨_, .lenBad hp hin hl, h.forgetResponse rfl rfl hvalid (by simp)⟩
  | lenOk hp hin hl => exact ⟨_, .lenOk hp hin hl, h.forgetResponse rfl rfl hvalid (by simp)⟩
  | bodyShort hp hl he => exact ⟨_, .bodyShort hp hl he, h.forgetResponse rfl rfl hvalid (by simp)⟩
  | bodyWhole hp hl =>
    exact ⟨_, .bodyWhole hp hl, sameVisible_storeBody h hvalid (List.length_take_of_le hl) _⟩
  | crcMatches hp hb hc =>
    exact ⟨_, .crcMatches hp ((bodyOf_withBuffers h hp).trans hb) hc, rfl, h.frame, h.data, fun _ => h.body (.inl hp)⟩
  | crcMismatch hp hb hc =>
    exact ⟨_, .crcMismatch hp ((bodyOf_withBuffers h hp).trans hb) hc, h.forgetResponse rfl rfl hvalid (by simp)⟩
  | complete hp =>
    obtain ⟨-, hl, -⟩ := hi.atFlush hp
    exact ⟨_, .complete hp, sameVisible_complete h hp hl⟩

/-! ## The step -/

theorem stepEffect_withBuffers (hi : Inv s) (h : SameVisible s (withBuffers tx rx s)) (hs : StepEffect s s') :
    ∃ t', StepEffect (withBuffers tx rx s) t' ∧ SameVisible s' t' := by
  cases hs with
  | idle hn hp hq => exact ⟨_, .idle hn hp hq, h.unseen rfl⟩
  | refused hn hp hq hd => exact ⟨_, .refused hn hp hq hd, h.unseen rfl⟩
  | performed hn hp hq hd he =>
    obtain ⟨t', he', hv⟩ := hostEffect_withBuffers (tx := tx) (rx := rx) he hp (h.unseen rfl)
    exact ⟨t', .performed hn hp hq hd he', hv⟩
  | exchange ha hx =>
    obtain ⟨t', hx', hv⟩ := exchangeStep_withBuffers (tx := tx) (rx := rx) hi.turnTaken (h.unseen rfl) hx
    exact ⟨t', .exchange ha hx', hv⟩
  | timerSilent ht hw => exact ⟨_, .timerSilent ht hw, h.unseen rfl⟩
  | present ht => exact ⟨_, .present ht, h.unseen rfl⟩
  | peerSend ht => exact ⟨_, .peerSend ht, h.unseen rfl⟩
  | peerTake ht => exact ⟨_, .peerTake ht, h.unseen rfl⟩
  | hardReset ht => exact ⟨_, .hardReset ht, .refl _⟩

end

/-- Settles O59: the second state's step has the same effect, built from the first one's case by case. -/
theorem unspecifiedBufferBytesAreUnobservable : Obligations.UnspecifiedBufferBytesAreUnobservable := by
  intro s t s' hi h hs
  obtain ⟨tx, rx, rfl⟩ := h.eq_withBuffers
  obtain ⟨t', ht, hv⟩ := stepEffect_withBuffers hi h (step_next_iff_stepEffect.1 hs)
  exact ⟨t', step_next_iff_stepEffect.2 ht, hv⟩

end Sys2Proof.Safety
end

section
/-! SUPPORT. Who writes what, over every step: `PHASE` (spec/10_state.md R19, R100), `CRC`, `MATCH` and the frame buffer
(R24 item 8). Each is read off `StepEffect`, with one lemma for the host operations and one for the phases. -/

namespace Sys2Proof.Safety

open Sys2Proof.Machine

/-! ## `PHASE` -/

/-- A host operation leaves the block in `IDLE`, or starts an exchange. -/
theorem phase_of_hostEffect {s t : State} {i : Instr} (he : HostEffect s i t) (hp : s.phase = .idle) :
    t.phase = .idle ∨ t.phase = .tx := by
  cases he with
  | answered | crcClr | crcUpd | crcVfy | txbClr | txbPush | xferFlush => exact .inl hp
  | start => exact .inr rfl
  | sysReset => exact .inl rfl

/-- A phase waits or moves along its row of the table. -/
theorem phase_of_exchangeStep {e : Bool} {s t : State} (hx : ExchangeStep e s t) :
    t.phase = s.phase ∨ phaseMove s.phase t.phase = true := by
  cases hx with
  | wait => exact .inl rfl
  | send hp | statusTimeout hp | statusOk hp | chipError hp | statusUnknown hp | lenTimeout hp | lenBad hp | lenOk hp
  | bodyShort hp | bodyWhole hp | crcMatches hp | crcMismatch hp | complete hp => rw [hp]; exact .inr rfl

/-- Settles O53, by cases on what the step can do. -/
theorem phaseMovesAsTheTable : Obligations.PhaseMovesAsTheTable := by
  intro s t h hr
  cases step_next_iff_stepEffect.1 h with
  | idle | refused | timerSilent | present | peerSend | peerTake => exact .inl rfl
  | performed hn hp hq hd he =>
    rw [hp]
    obtain ht | ht := phase_of_hostEffect he hp
    · exact .inl ht
    · rw [ht]; exact .inr rfl
  | exchange ha hx => exact phase_of_exchangeStep (s := turnTaken s) hx
  | hardReset ht => exact absurd ⟨_, ht⟩ hr

/-! ## `CRC`, `MATCH` and the frame -/

/-- An exchange writes neither `CRC` nor `MATCH` nor the frame (R11, R12, R41). -/
theorem exchangeStep_keeps {e : Bool} {s t : State} (hx : ExchangeStep e s t) :
    t.crc = s.crc ∧ t.matchFlag = s.matchFlag ∧ t.txbuf = s.txbuf ∧ t.txlen = s.txlen := by
  cases hx <;> exact ⟨rfl, rfl, rfl, rfl⟩

theorem crc_writers {s t : State} {i : Instr} (he : HostEffect s i t) (hc : t.crc ≠ s.crc) :
    i = .crcClr ∨ i = .sysReset ∨ ∃ b, i = .crcUpd b := by
  cases he with
  | answered | crcVfy | txbClr | txbPush | start | xferFlush => exact absurd rfl hc
  | crcClr => exact .inl rfl
  | sysReset => exact .inr (.inl rfl)
  | crcUpd b => exact .inr (.inr ⟨b, rfl⟩)

theorem matchFlag_writers {s t : State} {i : Instr} (he : HostEffect s i t) (hm : t.matchFlag ≠ s.matchFlag) :
    i = .sysReset ∨ ∃ w, i = .crcVfy w := by
  cases he with
  | answered | crcClr | crcUpd | txbClr | txbPush | start | xferFlush => exact absurd rfl hm
  | sysReset => exact .inl rfl
  | crcVfy w => exact .inr ⟨w, rfl⟩

theorem frame_writers {s t : State} {i : Instr} (he : HostEffect s i t)
    (hf : t.txbuf ≠ s.txbuf ∨ t.txlen ≠ s.txlen) : i = .txbClr ∨ i = .sysReset ∨ ∃ b, i = .txbPush b := by
  cases he with
  | answered | crcClr | crcUpd | crcVfy | start | xferFlush => exact hf.elim (absurd rfl) (absurd rfl)
  | txbClr => exact .inl rfl
  | sysReset => exact .inr (.inl rfl)
  | txbPush b => exact .inr (.inr ⟨b, rfl⟩)

/-- A step that changes `CRC`, `MATCH` or the frame is the hardware reset or performs a host operation, whose effect is
the change. -/
theorem changes_by_reset_or_host {s t : State} (h : step s = .next t)
    (hc : t.crc ≠ s.crc ∨ t.matchFlag ≠ s.matchFlag ∨ t.txbuf ≠ s.txbuf ∨ t.txlen ≠ s.txlen) :
    resetNext s ∨ ∃ i q, acceptsNext s i ∧ HostEffect { s with turns := s.turns.tail, hostq := q } i t := by
  have unchanged (hk : t.crc = s.crc ∧ t.matchFlag = s.matchFlag ∧ t.txbuf = s.txbuf ∧ t.txlen = s.txlen) : False := by
    obtain ⟨hcrc, hmatch, htxbuf, htxlen⟩ := hk
    simp [hcrc, hmatch, htxbuf, htxlen] at hc
  cases step_next_iff_stepEffect.1 h with
  | idle | refused | timerSilent | present | peerSend | peerTake => exact (unchanged ⟨rfl, rfl, rfl, rfl⟩).elim
  | performed hn hp hq hd he => exact .inr ⟨_, _, ⟨hn, hp, _, _, hq, hd⟩, he⟩
  | exchange ha hx => exact (unchanged (exchangeStep_keeps (s := turnTaken s) hx)).elim
  | hardReset ht => exact .inl ⟨_, ht⟩

/-- Settles O55: what a host operation changes names the operation. -/
theorem crcAndMatchHaveNoOtherWriters : Obligations.CrcAndMatchHaveNoOtherWriters := by
  refine fun s t h => ⟨fun hc => ?_, fun hm => ?_⟩
  · obtain hr | ⟨i, q, ha, he⟩ := changes_by_reset_or_host h (.inl hc)
    · exact .inl hr
    · obtain rfl | rfl | ⟨b, rfl⟩ := crc_writers he hc
      · exact .inr (.inl ha)
      · exact .inr (.inr (.inl ha))
      · exact .inr (.inr (.inr ⟨b, ha⟩))
  · obtain hr | ⟨i, q, ha, he⟩ := changes_by_reset_or_host h (.inr (.inl hm))
    · exact .inl hr
    · obtain rfl | ⟨w, rfl⟩ := matchFlag_writers he hm
      · exact .inr (.inl ha)
      · exact .inr (.inr ⟨w, ha⟩)

/-- Settles O56: what a host operation changes names the operation. -/
theorem frameIsStableThroughAnExchange : Obligations.FrameIsStableThroughAnExchange := by
  intro s t h hf
  obtain hr | ⟨i, q, ha, he⟩ := changes_by_reset_or_host h (.inr (.inr hf))
  · exact .inl hr
  · obtain rfl | rfl | ⟨b, rfl⟩ := frame_writers he hf
    · exact .inr (.inl ha)
    · exact .inr (.inr (.inl ha))
    · exact .inr (.inr (.inr ⟨b, ha⟩))

end Sys2Proof.Safety
end

section
/-! SUPPORT. Pushing a frame (spec/30_encoding.md R59, spec/41_tx_encoder.md R80, R81): what a list of pushes does to
the buffer. -/

namespace Sys2Proof.Safety

open Sys2Proof.Machine

theorem execAll_cons_next {i : Instr} {is : List Instr} {s t : State} (h : exec i s = .next t) :
    execAll (i :: is) s = execAll is t := by
  simp only [execAll, h]

/-- Pushing bytes that fit, each answered `DONE`, writes them behind the frame and adds their number to `TXLEN`. -/
theorem execAll_txbPush (f : List Byte) (s : State) (hp : s.phase = .idle) (hl : s.txlen.toNat + f.length ≤ 255)
    (ha : s.answer = some ⟨.done, []⟩) :
    execAll (f.map .txbPush) s =
      .next { s with
        txbuf := Memory.writeRange s.txbuf s.txlen.toNat f, txlen := s.txlen + BitVec.ofNat 8 f.length } := by
  induction f generalizing s with
  | nil => simp [execAll, Memory.writeRange]
  | cons b f ih =>
    rw [List.length_cons] at hl
    have hne : s.txlen.toNat ≠ 255 := by omega
    have hsum : s.txlen + 1#8 + BitVec.ofNat 8 f.length = s.txlen + BitVec.ofNat 8 (f.length + 1) := by
      rw [BitVec.add_assoc, ← BitVec.ofNat_add, Nat.add_comm 1]
    have hroom : (s.txlen + 1#8).toNat + f.length ≤ 255 := by rw [toNat_add_one hne]; omega
    calc execAll ((b :: f).map .txbPush) s
      _ = execAll (f.map .txbPush)
            (done [] { s with txbuf := Memory.write s.txbuf s.txlen.toNat b, txlen := s.txlen + 1#8 }) :=
          execAll_cons_next ((exec_next_iff_hostEffect rfl hp).2 (.txbPush b hne))
      _ = _ := ih _ hp hroom rfl
      _ = _ := by simp only [done, answerHost, toNat_add_one hne, hsum, List.length_cons, Memory.writeRange, ← ha]

/-- Settles O29, by induction on the frame (`execAll_txbPush`), starting from the empty frame. -/
theorem pushedFrameIsTheFrame : Obligations.PushedFrameIsTheFrame := by
  intro f s hp hl
  refine ⟨Memory.writeRange s.txbuf 0 f, ?_, Memory.readRange_writeRange s.txbuf 0 f⟩
  calc execAll ([.txbClr] ++ f.map .txbPush) s
    _ = execAll (f.map .txbPush) (done [] { s with txlen := 0#8 }) :=
        execAll_cons_next ((exec_next_iff_hostEffect rfl hp).2 .txbClr)
    _ = _ := execAll_txbPush f _ hp (by simpa using hl) rfl
    _ = _ := by simp [done, answerHost]

end Sys2Proof.Safety
end

section
/-! SUPPORT. Single facts of the state: the turns of the peer and the host (spec/20_memory.md R40, spec/43_system.md
R114), the stops at bytes nothing has written (spec/10_state.md R13, R14), the numbers of the enumerated registers (R15,
R16, R19, spec/30_encoding.md R55). -/

namespace Sys2Proof.Safety

open Sys2Proof.Machine

/-- Settles O10: each agent's turn is its own equation, and an idle block stays. -/
theorem otherAgentsTouchTheirQueuesOnly : Obligations.OtherAgentsTouchTheirQueuesOnly := by
  refine fun s ts => ⟨fun b ht => ?_, fun n ht => ?_, fun w ht => ?_, fun hn hp hq => ?_⟩
  · rw [step_cons ht]; rfl
  · rw [step_cons ht]; rfl
  · rw [step_cons ht]; rfl
  · exact step_next_iff_stepEffect.2 (.idle hn hp hq)

/-- Settles O15: each of the three reads meets a byte that holds no value. -/
theorem unwrittenBufferBytesStop : Obligations.UnwrittenBufferBytesStop := by
  refine ⟨fun s hp hf => ?_, fun s i hp hv hi hr => ?_, fun e s hp hb => ?_⟩
  · simp only [exec, execReq, atPhase_of _ hp, hf]
  · simp only [exec, execRxbRd, atPhase_of _ hp, rxReadable_iff.2 ⟨hv, hi⟩, hr, if_true]
  · rw [blockTurn_verify hp]
    simp only [phaseVerify, hb]

/-- Settles O47: the four tables, row by row. -/
theorem numbersOfTheEnumeratedRegisters : Obligations.NumbersOfTheEnumeratedRegisters :=
  ⟨rfl, rfl, rfl, rfl⟩

end Sys2Proof.Safety
end

section
/-! SUPPORT. The schedule and the waiting reads (spec/20_memory.md R31, R40, R42): when a read waits, and what the block's
turn is then. -/

namespace Sys2Proof.Safety

open Sys2Proof.Machine

/-- A read waits exactly in the reading phases, while bytes are missing: `readWaiting_iff` with the two reads of one byte
taken together. -/
theorem readWaiting_iff_missing {s : State} :
    readWaiting s = true ↔
      (s.phase = .rxStatus ∨ s.phase = .rxLen) ∧ s.chIn = [] ∨
        s.phase = .rxBody ∧ s.chIn.length < s.rawLen.toNat - 1 := by
  rw [readWaiting_iff, or_and_right, or_assoc]

/-- No read waits in the phases that read nothing, nor where all the bytes are there. -/
theorem readWaiting_eq_false_iff {s : State} :
    readWaiting s = false ↔
      s.phase = .idle ∨ s.phase = .tx ∨ s.phase = .verify ∨ s.phase = .flush ∨
        (s.phase = .rxStatus ∨ s.phase = .rxLen) ∧ s.chIn ≠ [] ∨
        s.phase = .rxBody ∧ s.rawLen.toNat - 1 ≤ s.chIn.length := by
  rw [← Bool.not_eq_true, readWaiting_iff_missing]
  obtain hp | hp | hp | hp | hp | hp | hp := phase_cases s <;> simp [hp]

/-- Settles O11: the schedule is empty, or its head is the turn that is due; the timer's turn acts exactly on a read that
waits. -/
theorem stepIsTheTurnThatIsDue : Obligations.StepIsTheTurnThatIsDue := by
  refine ⟨fun s ht => step_nil ht, fun s ts ht => step_cons ht, fun s ts ht hw => ?_, fun s ts ht hw => ?_⟩
  · rw [step_cons ht]
    exact if_pos (readWaiting_iff_missing.2 hw)
  · rw [step_cons ht]
    exact if_neg (Bool.eq_false_iff.1 (readWaiting_eq_false_iff.2 hw))

/-- Settles O12: a read waits in `blockTurn_wait`; with its bytes there each reading phase has one equation for both
values of the timer. -/
theorem readsWaitForTheirBytes : Obligations.ReadsWaitForTheirBytes := by
  refine ⟨fun s hw => blockTurn_wait (readWaiting_iff_missing.2 hw), fun s hr => ?_⟩
  obtain ⟨hp, hin⟩ | ⟨hp, hl⟩ := hr
  · obtain ⟨b, rest, hin⟩ := List.exists_cons_of_ne_nil hin
    obtain hp | hp := hp
    · simp only [blockTurn_rxStatus hp, phaseRxStatus_cons hin]
    · simp only [blockTurn_rxLen hp, phaseRxLen_cons hin]
  · simp only [blockTurn_rxBody hp, phaseRxBody_whole hl]

end Sys2Proof.Safety
end

section
/-! SUPPORT. Who takes what from the queues, over every step: the host's presented words (spec/43_system.md R114) and the
two directions of the channel (spec/20_memory.md R31, R32). Each is read off `StepEffect`, with one lemma for the host
operations and one for the phases. -/

namespace Sys2Proof.Safety

open Sys2Proof.Machine

/-! ## The presented words -/

theorem hostq_of_hostEffect {s t : State} {i : Instr} (he : HostEffect s i t) : t.hostq = s.hostq := by
  cases he <;> rfl

/-- An exchange touches neither the presented words nor the schedule. -/
theorem queues_of_exchangeStep {e : Bool} {s t : State} (hx : ExchangeStep e s t) :
    t.hostq = s.hostq ∧ t.turns = s.turns := by
  cases hx <;> exact ⟨rfl, rfl⟩

/-- Presented words stay, or the host's turn appends one, or the block in `IDLE` takes the first. -/
theorem hostq_of_stepEffect {s t : State} (hs : StepEffect s t) :
    t.hostq = s.hostq ∨ (∃ w ts, s.turns = .host w :: ts ∧ t.hostq = s.hostq ++ [w]) ∨
      (s.phase = .idle ∧ blockNext s ∧ ∃ w, s.hostq = w :: t.hostq) := by
  cases hs with
  | idle | timerSilent | peerSend | peerTake | hardReset => exact .inl rfl
  | refused hn hp hq => exact .inr (.inr ⟨hp, hn, _, hq⟩)
  | performed hn hp hq hd he => exact .inr (.inr ⟨hp, hn, _, by rw [hostq_of_hostEffect he]; exact hq⟩)
  | exchange ha hx => exact .inl (queues_of_exchangeStep hx).1
  | present ht => exact .inr (.inl ⟨_, _, ht, rfl⟩)

/-- Settles O54: only the block in `IDLE` takes a word (`hostq_of_stepEffect`). -/
theorem presentedWordsAreHeldWhileBusy : Obligations.PresentedWordsAreHeldWhileBusy := by
  intro s t h _
  obtain hq | hq | ⟨hp, hn, hq⟩ := hostq_of_stepEffect (step_next_iff_stepEffect.1 h)
  · exact ⟨fun _ => .inl hq, fun _ => .inl hq⟩
  · exact ⟨fun _ => .inr hq, fun _ => .inr (.inl hq)⟩
  · exact ⟨fun hb => absurd hp hb, fun _ => .inr (.inr ⟨hn, hq⟩)⟩

/-! ## The channel -/

/-- Of the host operations only `XFER.FLUSH` touches the channel, and it empties both directions (R103). -/
theorem channel_of_hostEffect {s t : State} {i : Instr} (he : HostEffect s i t) :
    (i = .xferFlush ∧ t.chIn = [] ∧ t.chOutq = []) ∨ (t.chIn = s.chIn ∧ t.chOutq = s.chOutq) := by
  cases he with
  | xferFlush => exact .inl ⟨rfl, rfl, rfl⟩
  | answered | crcClr | crcUpd | crcVfy | txbClr | txbPush | start | sysReset => exact .inr ⟨rfl, rfl⟩

/-- The phase of `s` is left, and `ch.in` has lost at its head what the phase's read returns: one byte in `RX_STATUS` and
`RX_LEN`, the body or all there is in `RX_BODY` (R92, R94, R96). -/
def ReadTaken (s t : State) : Prop :=
  t.phase ≠ s.phase ∧
    (((s.phase = .rxStatus ∨ s.phase = .rxLen) ∧ t.chIn = s.chIn.drop 1) ∨
      (s.phase = .rxBody ∧ t.chIn = s.chIn.drop (s.rawLen.toNat - 1)))

theorem readTaken_oneByte {s t : State} {b : Byte} {rest : List Byte} (hp : s.phase = .rxStatus ∨ s.phase = .rxLen)
    (hin : s.chIn = b :: rest) (ht : t.phase ≠ s.phase) (hrest : t.chIn = rest) : ReadTaken s t :=
  ⟨ht, .inl ⟨hp, by rw [hrest, hin, List.drop_one, List.tail_cons]⟩⟩

/-- What a phase does to the channel: the end in success flushes it, `TX` appends to `ch.outq`, and every other phase
leaves `ch.outq` and takes from `ch.in` at most what its read returns. -/
theorem channel_of_exchangeStep {e : Bool} {s t : State} (hx : ExchangeStep e s t) :
    (s.phase = .flush ∧ t = completeExchange s) ∨
    (s.phase = .tx ∧ t.phase = .rxStatus ∧ t.chIn = s.chIn ∧ ∃ bytes, t.chOutq = s.chOutq ++ bytes) ∨
    (t.chOutq = s.chOutq ∧ (t.chIn = s.chIn ∨ ReadTaken s t)) := by
  cases hx with
  | complete hp => exact .inl ⟨hp, rfl⟩
  | send hp => exact .inr (.inl ⟨hp, rfl, rfl, _, rfl⟩)
  | wait | statusTimeout | lenTimeout | crcMatches | crcMismatch => exact .inr (.inr ⟨rfl, .inl rfl⟩)
  | statusOk hp hin | chipError hp hin | statusUnknown hp hin =>
    exact .inr (.inr ⟨rfl, .inr (readTaken_oneByte (.inl hp) hin (by simp [hp]) rfl)⟩)
  | lenBad hp hin | lenOk hp hin =>
    exact .inr (.inr ⟨rfl, .inr (readTaken_oneByte (.inr hp) hin (by simp [hp]) rfl)⟩)
  | bodyShort hp hl => exact .inr (.inr ⟨rfl, .inr ⟨by simp [hp], .inr ⟨hp, (List.drop_of_length_le hl.le).symm⟩⟩⟩)
  | bodyWhole hp => exact .inr (.inr ⟨rfl, .inr ⟨by simp [hp], .inr ⟨hp, rfl⟩⟩⟩)

/-- The block acts by its own turn, or by the timer's on a read that waits. -/
theorem blockNext_or_timer_of_blockActs {e : Bool} {s : State} (h : BlockActs e s) :
    blockNext s ∨ (readWaiting s = true ∧ ∃ ts, s.turns = .timer :: ts) := by
  obtain ⟨ht, -⟩ | ⟨ts, ht, -⟩ | ⟨ts, ht, hw, -⟩ := h
  · exact .inl (.inl ht)
  · exact .inl (.inr ⟨ts, ht⟩)
  · exact .inr ⟨hw, ts, ht⟩

/-- Settles O58, by cases on what the step can do: the two flushes are `XFER.FLUSH` (`channel_of_hostEffect`) and the
phase `FLUSH` (`channel_of_exchangeStep`). -/
theorem flushHappensInTwoPlacesOnly : Obligations.FlushHappensInTwoPlacesOnly := by
  intro s t h
  cases step_next_iff_stepEffect.1 h with
  | idle | refused | timerSilent | present | hardReset => exact .inr ⟨.inl rfl, .inl rfl⟩
  | peerSend ht => exact .inr ⟨.inr (.inl ⟨_, _, ht, rfl⟩), .inl rfl⟩
  | peerTake ht => exact .inr ⟨.inl rfl, .inr (.inl ⟨_, _, ht, rfl⟩)⟩
  | performed hn hp hq hd he =>
    obtain ⟨rfl, hin, hout⟩ | ⟨hin, hout⟩ := channel_of_hostEffect he
    · exact .inl ⟨hin, hout, .inl ⟨hn, hp, _, _, hq, hd⟩⟩
    · exact .inr ⟨.inl hin, .inl hout⟩
  | exchange ha hx =>
    obtain ⟨hp, rfl⟩ | ⟨hp, htp, hin, hout⟩ | ⟨hout, hin | ⟨hleft, htaken⟩⟩ :=
      channel_of_exchangeStep (s := turnTaken s) hx
    · have hw : readWaiting s = false := readWaiting_eq_false_iff.2 (.inr (.inr (.inr (.inl hp))))
      have hn := (blockNext_or_timer_of_blockActs ha).resolve_right fun ⟨hwait, _⟩ => by simp [hw] at hwait
      exact .inl ⟨rfl, rfl, .inr ⟨hn, hp, rfl, rfl⟩⟩
    · exact .inr ⟨.inl hin, .inr (.inr ⟨hp, htp, hout⟩)⟩
    · exact .inr ⟨.inl hin, .inl hout⟩
    · exact .inr ⟨.inr (.inr ⟨(blockNext_or_timer_of_blockActs ha).imp_right And.right, hleft, htaken⟩), .inl hout⟩

end Sys2Proof.Safety
end

section
/-! SUPPORT. Every exchange ends (spec/20_memory.md R42, spec/42_rx_decoder.md R105): while an exchange runs a step
answers next, and each step uses up a turn of the schedule or one of the phases that are left. -/

namespace Sys2Proof.Safety

open Sys2Proof.Machine

/-! ## A running exchange has a next step -/

/-- A read that waits goes on waiting, or the timer ends it. -/
theorem exists_exchangeStep_of_waiting {s : State} (e : Bool) (hw : readWaiting s = true) :
    ∃ t, ExchangeStep e s t := by
  cases e with
  | false => exact ⟨s, .wait hw rfl⟩
  | true =>
    obtain ⟨hp, hin⟩ | ⟨hp, hin⟩ | ⟨hp, hl⟩ := readWaiting_iff.1 hw
    · exact ⟨_, .statusTimeout hp hin rfl⟩
    · exact ⟨_, .lenTimeout hp hin rfl⟩
    · exact ⟨_, .bodyShort hp hl rfl⟩

/-- Every status byte has its row (R51, R93). -/
theorem exists_exchangeStep_of_status {e : Bool} {b : Byte} {rest : List Byte} {s : State} (hp : s.phase = .rxStatus)
    (hin : s.chIn = b :: rest) : ∃ t, ExchangeStep e s t := by
  obtain rfl | rfl | rfl | rfl | hb := status_cases b
  · exact ⟨_, .statusOk hp hin⟩
  · exact ⟨_, .chipError (tag := .receiveError) hp hin (by decide)⟩
  · exact ⟨_, .chipError (tag := .paramError) hp hin (by decide)⟩
  · exact ⟨_, .chipError (tag := .executeError) hp hin (by decide)⟩
  · exact ⟨_, .statusUnknown hp hin hb⟩

/-- Under the invariants the block's turn in an exchange meets no byte that holds no value. -/
theorem Inv.exists_exchangeStep {s : State} (e : Bool) (h : Inv s) (hb : s.phase ≠ .idle) :
    ∃ t, ExchangeStep e s t := by
  cases hw : readWaiting s with
  | true => exact exists_exchangeStep_of_waiting e hw
  | false =>
    obtain hp | hp | hp | hp | ⟨hp | hp, hin⟩ | ⟨hp, hl⟩ := readWaiting_eq_false_iff.1 hw
    · exact absurd hp hb
    · obtain ⟨f, hf⟩ := h.frameWritten
      exact ⟨_, .send hp hf⟩
    · obtain ⟨-, -, -, b, hbody⟩ := h.atVerify hp
      by_cases hc : b.drop (s.rawLen.toNat - 3) = crcEmit (crc16 (s.rawLen :: b.take (s.rawLen.toNat - 3)))
      · exact ⟨_, .crcMatches hp hbody hc⟩
      · exact ⟨_, .crcMismatch hp hbody hc⟩
    · exact ⟨_, .complete hp⟩
    · obtain ⟨b, rest, hin⟩ := List.exists_cons_of_ne_nil hin
      exact exists_exchangeStep_of_status hp hin
    · obtain ⟨l, rest, hin⟩ := List.exists_cons_of_ne_nil hin
      obtain hl | hl := Nat.lt_or_ge l.toNat 3
      · exact ⟨_, .lenBad hp hin hl⟩
      · exact ⟨_, .lenOk hp hin hl⟩
    · exact ⟨_, .bodyWhole hp hl⟩

/-- Whoever is due, a running exchange has a next step. -/
theorem Inv.exists_stepEffect_of_busy {s : State} (h : Inv s) (hb : s.phase ≠ .idle) : ∃ t, StepEffect s t := by
  have acts {e : Bool} (ha : BlockActs e s) : ∃ t, StepEffect s t := by
    obtain ⟨t, hx⟩ := h.turnTaken.exists_exchangeStep e hb
    exact ⟨t, .exchange ha hx⟩
  cases ht : s.turns with
  | nil => exact acts (.inl ⟨ht, rfl⟩)
  | cons a ts =>
    cases a with
    | block => exact acts (.inr (.inl ⟨ts, ht, rfl⟩))
    | timer =>
      cases hw : readWaiting s with
      | true => exact acts (.inr (.inr ⟨ts, ht, hw, rfl⟩))
      | false => exact ⟨_, .timerSilent ht hw⟩
    | host w => exact ⟨_, .present ht⟩
    | peerSend b => exact ⟨_, .peerSend ht⟩
    | peerTake n => exact ⟨_, .peerTake ht⟩
    | rst => exact ⟨_, .hardReset ht⟩

/-! ## Each step comes nearer to `IDLE` -/

/-- How many steps of its own the block has before it at most, until it is idle: the longest way of R100. -/
def phasesLeft : Phase → Nat
  | .idle => 0
  | .tx => 6
  | .rxStatus => 5
  | .rxLen => 4
  | .rxBody => 3
  | .verify => 2
  | .flush => 1

theorem phasesLeft_le (p : Phase) : phasesLeft p ≤ 6 := by
  cases p <;> decide

theorem phasesLeft_pos {p : Phase} (h : p ≠ .idle) : 0 < phasesLeft p := by
  cases p with
  | idle => exact absurd rfl h
  | tx | rxStatus | rxLen | rxBody | verify | flush => decide

/-- The turns that other agents or the block may still take, and the phases left once there are none. -/
def stepsLeft (s : State) : Nat := s.turns.length + phasesLeft s.phase

/-- The block's turn waits, the timer silent, or leaves its phase for a later one. -/
theorem phasesLeft_of_exchangeStep {e : Bool} {s t : State} (hx : ExchangeStep e s t) :
    (e = false ∧ t = s) ∨ phasesLeft t.phase < phasesLeft s.phase := by
  cases hx with
  | wait hw he => exact .inl ⟨he, rfl⟩
  | send hp | statusTimeout hp | statusOk hp | chipError hp | statusUnknown hp | lenTimeout hp | lenBad hp | lenOk hp
  | bodyShort hp | bodyWhole hp | crcMatches hp | crcMismatch hp | complete hp => simp [hp, phasesLeft]

theorem stepsLeft_turnTaken {s : State} {a : Turn} {ts : List Turn} (ht : s.turns = a :: ts) :
    stepsLeft (turnTaken s) < stepsLeft s := by
  simp [stepsLeft, ht]

/-- The block's turn in an exchange uses up a turn or a phase: it waits in a turn of its own only. -/
theorem stepsLeft_of_blockActs {e : Bool} {s t : State} (ha : BlockActs e s) (hx : ExchangeStep e (turnTaken s) t) :
    stepsLeft t < stepsLeft s := by
  obtain ⟨rfl, rfl⟩ | hlt := phasesLeft_of_exchangeStep hx
  · obtain ⟨-, he⟩ | ⟨ts, ht, -⟩ | ⟨ts, ht, -, -⟩ := ha
    · cases he
    · exact stepsLeft_turnTaken ht
    · exact stepsLeft_turnTaken ht
  · have hturns : t.turns.length ≤ s.turns.length := by simp [(queues_of_exchangeStep hx).2]
    exact Nat.add_lt_add_of_le_of_lt hturns hlt

/-- While an exchange runs every step, whoever takes it, leaves fewer steps. -/
theorem stepsLeft_of_stepEffect {s t : State} (hs : StepEffect s t) (hb : s.phase ≠ .idle) :
    stepsLeft t < stepsLeft s := by
  cases hs with
  | idle hn hp | refused hn hp | performed hn hp => exact absurd hp hb
  | exchange ha hx => exact stepsLeft_of_blockActs ha hx
  | timerSilent ht | present ht | peerSend ht | peerTake ht => exact stepsLeft_turnTaken ht
  | hardReset ht => exact Nat.add_lt_add_of_le_of_lt (by simp) (phasesLeft_pos hb)

/-! ## The run -/

theorem run_succ_of_step {k : Nat} {s t : State} (h : step s = .next t) :
    Host.Core.run Sys2Proof.core (k + 1) s = Host.Core.run Sys2Proof.core k t := by
  have hcore : Sys2Proof.core.step s = .next t := h
  simp only [Host.Core.run, hcore]

/-- A bound on the steps left is a bound on the run to `IDLE`. -/
theorem Inv.run_reaches_idle {n : Nat} {s : State} (h : Inv s) (hn : stepsLeft s ≤ n) :
    ∃ k t, k ≤ n ∧ Host.Core.run Sys2Proof.core k s = .next t ∧ t.phase = .idle := by
  induction n generalizing s with
  | zero =>
    have hp : s.phase = .idle := by
      by_contra hb
      have hpos := phasesLeft_pos hb
      simp only [stepsLeft] at hn
      omega
    exact ⟨0, s, le_rfl, rfl, hp⟩
  | succ n ih =>
    by_cases hp : s.phase = .idle
    · exact ⟨0, s, Nat.zero_le _, rfl, hp⟩
    · obtain ⟨u, hu⟩ := h.exists_stepEffect_of_busy hp
      have hlt := stepsLeft_of_stepEffect hu hp
      obtain ⟨k, t, hk, hrun, ht⟩ := ih (h.stepEffect hu) (by omega)
      exact ⟨k + 1, t, Nat.succ_le_succ hk, (run_succ_of_step (step_of_stepEffect hu)).trans hrun, ht⟩

/-- Settles O43: at most six phases are left beside the turns (`Inv.run_reaches_idle`). -/
theorem everyExchangeEnds : Obligations.EveryExchangeEnds :=
  fun s h _ => h.run_reaches_idle (Nat.add_le_add_left (phasesLeft_le s.phase) s.turns.length)

end Sys2Proof.Safety
end

section
/-! SUPPORT. The operation map of the host word (spec/30_encoding.md R53, R54, R56) as three kinds of operation, tied to the
decoder and the encoder, and both directions of the encoding read off from it. -/

namespace Sys2Proof

/-! ## The operation map -/

/-- The operations without argument, with their `op`. -/
def noArgOps : List (Byte × Instr) :=
  [(0x00#8, .nop), (0x01#8, .crcClr), (0x03#8, .crcEmit), (0x10#8, .txbClr), (0x20#8, .xferExec), (0x22#8, .xferFlush),
   (0x3F#8, .sysReset)]

/-- The operations with a byte argument, with their `op`. -/
def byteArgOps : List (Byte × (Byte → Instr)) :=
  [(0x02#8, .crcUpd), (0x11#8, .txbPush), (0x21#8, .rxbRd), (0x30#8, .regRd)]

/-- The twelve values of `op` that R54 gives a meaning, in the order of the map. -/
def usedOps : List Byte :=
  [0x00#8, 0x01#8, 0x02#8, 0x03#8, 0x04#8, 0x10#8, 0x11#8, 0x20#8, 0x21#8, 0x22#8, 0x30#8, 0x3F#8]

/-- An `op` is used by an operation without argument, by one with a byte argument, by `CRC.VFY`, or by none. -/
theorem op_cases (op : Byte) :
    (∃ i, (op, i) ∈ noArgOps) ∨ (∃ mk, (op, mk) ∈ byteArgOps) ∨ op = 0x04#8 ∨ op ∉ usedOps := by
  have hop : op ∈ noArgOps.map Prod.fst ∨ op ∈ byteArgOps.map Prod.fst ∨ op = 0x04#8 ∨ op ∉ usedOps := by
    revert op; decide
  simpa only [List.mem_map, Prod.exists, exists_and_right, exists_eq_right] using hop

theorem decodeHost_noArg {op : Byte} {i : Instr} (arg : Crc) (h : (op, i) ∈ noArgOps) :
    decode (.hc (hostWord op arg)) = noArg arg i := by
  simp only [noArgOps, List.mem_cons, Prod.mk.injEq, List.not_mem_nil, or_false] at h
  obtain ⟨rfl, rfl⟩ | ⟨rfl, rfl⟩ | ⟨rfl, rfl⟩ | ⟨rfl, rfl⟩ | ⟨rfl, rfl⟩ | ⟨rfl, rfl⟩ | ⟨rfl, rfl⟩ := h <;>
    simp [decode, decodeHost]

theorem decodeHost_byteArg {op : Byte} {mk : Byte → Instr} (arg : Crc) (h : (op, mk) ∈ byteArgOps) :
    decode (.hc (hostWord op arg)) = byteArg arg mk := by
  simp only [byteArgOps, List.mem_cons, Prod.mk.injEq, List.not_mem_nil, or_false] at h
  obtain ⟨rfl, rfl⟩ | ⟨rfl, rfl⟩ | ⟨rfl, rfl⟩ | ⟨rfl, rfl⟩ := h <;> simp [decode, decodeHost]

theorem decodeHost_crcVfy (arg : Crc) : decode (.hc (hostWord 0x04#8 arg)) = .ok (.crcVfy arg) := by
  simp [decode, decodeHost]

theorem decodeHost_unused {op : Byte} (arg : Crc) (h : op ∉ usedOps) :
    decode (.hc (hostWord op arg)) = .error .badOp := by
  have used {n : Nat} (hn : op.toNat = n) (hu : BitVec.ofNat 8 n ∈ usedOps) : False :=
    h (by rwa [← hn, BitVec.ofNat_toNat, BitVec.setWidth_eq] at hu)
  simp only [decode, decodeHost, opField_hostWord]
  split <;> first | rfl | exact (used ‹_› (by decide)).elim

theorem encode_noArg {op : Byte} {i : Instr} (h : (op, i) ∈ noArgOps) : encode i = .hc (hostWord op 0#16) := by
  simp only [noArgOps, List.mem_cons, Prod.mk.injEq, List.not_mem_nil, or_false] at h
  obtain ⟨rfl, rfl⟩ | ⟨rfl, rfl⟩ | ⟨rfl, rfl⟩ | ⟨rfl, rfl⟩ | ⟨rfl, rfl⟩ | ⟨rfl, rfl⟩ | ⟨rfl, rfl⟩ := h <;> rfl

theorem encode_byteArg {op : Byte} {mk : Byte → Instr} (b : Byte) (h : (op, mk) ∈ byteArgOps) :
    encode (mk b) = .hc (hostWord op (joinBytes b 0#8)) := by
  simp only [byteArgOps, List.mem_cons, Prod.mk.injEq, List.not_mem_nil, or_false] at h
  obtain ⟨rfl, rfl⟩ | ⟨rfl, rfl⟩ | ⟨rfl, rfl⟩ | ⟨rfl, rfl⟩ := h <;> rfl

/-! ## Both directions of the encoding -/

theorem decode_encode_noArg {op : Byte} {i : Instr} (h : (op, i) ∈ noArgOps) : decode (encode i) = .ok i := by
  rw [encode_noArg h, decodeHost_noArg _ h, noArg_zero]

theorem decode_encode_byteArg {op : Byte} {mk : Byte → Instr} (b : Byte) (h : (op, mk) ∈ byteArgOps) :
    decode (encode (mk b)) = .ok (mk b) := by
  rw [encode_byteArg b h, decodeHost_byteArg _ h, byteArg_joinBytes]

/-- Settles O1: the host words by the kind of operation, the status bytes by their row's range. -/
theorem decodeReadsBackEncode : Obligations.DecodeReadsBackEncode := by
  intro i
  cases i with
  | nop => exact decode_encode_noArg (op := 0x00#8) (by simp [noArgOps])
  | crcClr => exact decode_encode_noArg (op := 0x01#8) (by simp [noArgOps])
  | crcEmit => exact decode_encode_noArg (op := 0x03#8) (by simp [noArgOps])
  | txbClr => exact decode_encode_noArg (op := 0x10#8) (by simp [noArgOps])
  | xferExec => exact decode_encode_noArg (op := 0x20#8) (by simp [noArgOps])
  | xferFlush => exact decode_encode_noArg (op := 0x22#8) (by simp [noArgOps])
  | sysReset => exact decode_encode_noArg (op := 0x3F#8) (by simp [noArgOps])
  | crcUpd b => exact decode_encode_byteArg (op := 0x02#8) b (by simp [byteArgOps])
  | txbPush b => exact decode_encode_byteArg (op := 0x11#8) b (by simp [byteArgOps])
  | rxbRd k => exact decode_encode_byteArg (op := 0x21#8) k (by simp [byteArgOps])
  | regRd r => exact decode_encode_byteArg (op := 0x30#8) r (by simp [byteArgOps])
  | crcVfy w => exact decodeHost_crcVfy w
  | req | stOk | stRecv | stParam | stExec => rfl
  | stUnknown04 ss | stUnknown08 ss | stUnknown10 ss | stUnknown20 ss | stUnknown40 ss | stUnknown80 ss =>
    revert ss; decide

theorem encode_of_decodeHost {op : Byte} {arg : Crc} {i : Instr} (h : decode (.hc (hostWord op arg)) = .ok i) :
    encode i = .hc (hostWord op arg) := by
  obtain ⟨j, hop⟩ | ⟨mk, hop⟩ | rfl | hop := op_cases op
  · rw [decodeHost_noArg arg hop] at h
    obtain ⟨rfl, rfl⟩ := noArg_eq_ok.1 h
    exact encode_noArg hop
  · rw [decodeHost_byteArg arg hop] at h
    obtain ⟨harg, rfl⟩ := byteArg_eq_ok.1 h
    rw [encode_byteArg _ hop, joinBytes_of_high_zero harg]
  · rw [decodeHost_crcVfy] at h
    obtain rfl := Except.ok.inj h
    rfl
  · rw [decodeHost_unused arg hop] at h
    cases h

/-- Settles O2, format by format; a host word is the word of its two fields. -/
theorem encodeReadsBackDecode : Obligations.EncodeReadsBackDecode := by
  intro c i h
  cases c with
  | hc w =>
    rw [← hostWord_fields w] at h ⊢
    exact encode_of_decodeHost h
  | req b =>
    simp only [decode] at h
    split at h
    · obtain rfl := Except.ok.inj h
      subst b
      rfl
    · cases h
  | rsp b =>
    obtain rfl := Except.ok.inj h
    exact Machine.encode_decodeStatus b

/-- Settles O4: the three clauses are the kinds of operation of `op_cases`. -/
theorem undefinedWordsAreRefusedByName : Obligations.UndefinedWordsAreRefusedByName := by
  intro w
  rw [← hostWord_fields w]
  simp only [opField_hostWord, argField_hostWord]
  refine ⟨decodeHost_unused _, fun hop harg => ?_, fun hop harg => ?_⟩
  · obtain ⟨⟨op, i⟩, hmem, heq⟩ := List.mem_map.1 (show opField w ∈ noArgOps.map Prod.fst from hop)
    obtain rfl : op = opField w := heq
    rw [decodeHost_noArg _ hmem, noArg_nonzero _ harg]
  · obtain ⟨⟨op, mk⟩, hmem, heq⟩ := List.mem_map.1 (show opField w ∈ byteArgOps.map Prod.fst from hop)
    obtain rfl : op = opField w := heq
    rw [decodeHost_byteArg _ hmem, byteArg_nonzero _ harg]

/-- Settles O5: the words are those of the encoder, which the decoder reads back. -/
theorem writtenWordsDecode : Obligations.WrittenWordsDecode :=
  ⟨decodeReadsBackEncode .nop, decodeReadsBackEncode (.crcUpd 0xA5#8), decodeReadsBackEncode (.crcVfy 0x3343#16),
    decodeReadsBackEncode (.txbPush 0xFD#8), decodeReadsBackEncode .xferExec, decodeReadsBackEncode (.regRd 0x0B#8),
    decodeReadsBackEncode .req, decodeReadsBackEncode .stParam, decodeReadsBackEncode (.stUnknown20 0b01001#5)⟩

/-! ## The opcode table -/

/-- Every instruction's word lies in its own row: the laws of `Laws.InOwnRow`, together. -/
theorem encode_in_own_row (i : Instr) : Laws.InOwnRow.Statement i := by
  cases i with
  | nop => exact Laws.InOwnRow.nop
  | crcClr => exact Laws.InOwnRow.crcClr
  | crcUpd b => exact Laws.InOwnRow.crcUpd b
  | crcEmit => exact Laws.InOwnRow.crcEmit
  | crcVfy w => exact Laws.InOwnRow.crcVfy w
  | txbClr => exact Laws.InOwnRow.txbClr
  | txbPush b => exact Laws.InOwnRow.txbPush b
  | xferExec => exact Laws.InOwnRow.xferExec
  | rxbRd k => exact Laws.InOwnRow.rxbRd k
  | xferFlush => exact Laws.InOwnRow.xferFlush
  | regRd r => exact Laws.InOwnRow.regRd r
  | sysReset => exact Laws.InOwnRow.sysReset
  | req => exact Laws.InOwnRow.req
  | stOk => exact Laws.InOwnRow.stOk
  | stRecv => exact Laws.InOwnRow.stRecv
  | stParam => exact Laws.InOwnRow.stParam
  | stExec => exact Laws.InOwnRow.stExec
  | stUnknown04 ss => exact Laws.InOwnRow.stUnknown04 ss
  | stUnknown08 ss => exact Laws.InOwnRow.stUnknown08 ss
  | stUnknown10 ss => exact Laws.InOwnRow.stUnknown10 ss
  | stUnknown20 ss => exact Laws.InOwnRow.stUnknown20 ss
  | stUnknown40 ss => exact Laws.InOwnRow.stUnknown40 ss
  | stUnknown80 ss => exact Laws.InOwnRow.stUnknown80 ss

@[simp] theorem opField_and (v w : HostWord) : opField (v &&& w) = opField v &&& opField w := BitVec.extractLsb'_and

@[simp] theorem argField_and (v w : HostWord) : argField (v &&& w) = argField v &&& argField w := BitVec.extractLsb'_and

@[simp] theorem highByte_and (v w : Crc) : highByte (v &&& w) = highByte v &&& highByte w := BitVec.extractLsb'_and

/-- The host rows of the table, by the kind of operation: the mask leaves free no argument bit, the low byte, or the whole
argument. -/
theorem host_row_cases : ∀ r ∈ opcodeTable, r.format = .hc →
    (r.mask = (hostWord 0xFF#8 0xFFFF#16).toNat ∧ ∃ p ∈ noArgOps, r.value = (hostWord p.1 0#16).toNat) ∨
      (r.mask = (hostWord 0xFF#8 0xFF00#16).toNat ∧ ∃ p ∈ byteArgOps, r.value = (hostWord p.1 0#16).toNat) ∨
      (r.mask = (hostWord 0xFF#8 0x0000#16).toNat ∧ r.value = (hostWord 0x04#8 0#16).toNat) := by decide

/-- A word whose masked bits are an operation's value has that `op`, and no argument bit set that the mask keeps. -/
theorem fields_of_masked {w : HostWord} {op : Byte} {m : Crc}
    (h : w.toNat &&& (hostWord 0xFF#8 m).toNat = (hostWord op 0#16).toNat) :
    opField w = op ∧ argField w &&& m = 0#16 := by
  have hw : w &&& hostWord 0xFF#8 m = hostWord op 0#16 := BitVec.eq_of_toNat_eq (by rwa [BitVec.toNat_and])
  have hop : opField w &&& 0xFF#8 = op := by simpa using congrArg opField hw
  have hall : opField w &&& 0xFF#8 = opField w := BitVec.and_allOnes
  exact ⟨hall.symm.trans hop, by simpa using congrArg argField hw⟩

/-- Every host word in a row of the table is an operation's word. -/
theorem exists_encode_of_host_row {r : TableRow} {w : HostWord} (hr : r ∈ opcodeTable) (hf : r.format = .hc)
    (hbits : w.toNat &&& r.mask = r.value) : ∃ i, encode i = .hc w := by
  rw [← hostWord_fields w]
  obtain ⟨hm, ⟨op, i⟩, hi, hv⟩ | ⟨hm, ⟨op, mk⟩, hmk, hv⟩ | ⟨hm, hv⟩ := host_row_cases r hr hf <;>
    rw [hm, hv] at hbits <;> obtain ⟨hop, harg⟩ := fields_of_masked hbits <;> rw [hop]
  · have hall : argField w &&& 0xFFFF#16 = argField w := BitVec.and_allOnes
    exact ⟨i, by rw [encode_noArg hi, hall.symm.trans harg]⟩
  · have hkept : highByte (argField w) &&& 0xFF#8 = 0#8 := (highByte_and _ _).symm.trans (congrArg highByte harg)
    have hall : highByte (argField w) &&& 0xFF#8 = highByte (argField w) := BitVec.and_allOnes
    exact ⟨mk (lowByte (argField w)), by rw [encode_byteArg _ hmk, joinBytes_of_high_zero (hall.symm.trans hkept)]⟩
  · exact ⟨.crcVfy (argField w), rfl⟩

/-- The one request row holds the start byte only. -/
theorem start_of_request_row : ∀ r ∈ opcodeTable, r.format = .req → ∀ b : Byte, b.toNat &&& r.mask = r.value →
    b = 0xFD#8 := by decide

/-- Every word in a row of the table is an instruction's word: the converse of `encode_in_own_row`. -/
theorem exists_encode_of_fits {r : TableRow} {c : Encoded} (hr : r ∈ opcodeTable) (h : r.fits c = true) :
    ∃ i, encode i = c := by
  simp only [TableRow.fits, Bool.and_eq_true, decide_eq_true_eq] at h
  obtain ⟨hf, hbits⟩ := h
  cases c with
  | hc w => exact exists_encode_of_host_row hr hf.symm hbits
  | req b => exact ⟨.req, by rw [start_of_request_row r hr hf.symm b hbits]; rfl⟩
  | rsp b => exact ⟨decodeStatus b, Machine.encode_decodeStatus b⟩

/-- Settles O3: a word that decodes is its instruction's word, which lies in its row; a word in a row is an instruction's
word, which decodes. -/
theorem decodedWordsAreTheTableRows : Obligations.DecodedWordsAreTheTableRows := by
  refine ⟨fun c i h => ?_, fun c e h r hr => ?_⟩
  · rw [← encodeReadsBackDecode c i h]
    exact encode_in_own_row i
  · refine Bool.eq_false_iff.2 fun hfits => ?_
    obtain ⟨i, rfl⟩ := exists_encode_of_fits hr hfits
    rw [decodeReadsBackEncode i] at h
    cases h

/-! ## The channel formats -/

theorem decodeRequest_encodeRequest {f : List Byte} (rest : List Byte) (h : f.length ≤ 255) :
    decodeRequest (encodeRequest f ++ rest) = some (f, rest) := by
  have hn : (BitVec.ofNat 8 f.length).toNat = f.length := by rw [BitVec.toNat_ofNat]; omega
  simp [encodeRequest, decodeRequest, hn]

theorem decodeResponse_error {status : Byte} (rest : List Byte) (h : status ≠ 0#8) :
    decodeResponse (status :: rest) = some (.error status, rest) := if_neg h

theorem decodeResponse_full {l : Byte} {body : List Byte} (rest : List Byte) (hl : 3 ≤ l.toNat)
    (hb : body.length = l.toNat - 1) : decodeResponse ([0#8, l] ++ body ++ rest) = some (.full l body, rest) := by
  simp [decodeResponse, lengthByteOk, Config.rspOverhead, hl, ← hb]

/-- Settles O6, one length rule after the other. -/
theorem channelFormatsReadBack : Obligations.ChannelFormatsReadBack :=
  ⟨fun _ rest hf => decodeRequest_encodeRequest rest hf, fun _ rest hs => decodeResponse_error rest hs,
    fun _ _ rest hl hb => decodeResponse_full rest hl hb⟩

end Sys2Proof
end

section
/-! SUPPORT. The refusal of a presented word (spec/43_system.md R113, R114) and two phases of the exchange row by row: the
classification of the status byte (spec/42_rx_decoder.md R93) and the check of the CRC (R97). -/

namespace Sys2Proof.Safety

open Sys2Proof.Machine

/-- Settles O9: the step's effect is the refusal, with the acknowledge the decoder's error names. -/
theorem stepRefusesOtherWords : Obligations.StepRefusesOtherWords :=
  fun _ _ _ hn hp hq =>
    ⟨fun hd => step_of_stepEffect (.refused hn hp hq hd), fun hd => step_of_stepEffect (.refused hn hp hq hd)⟩

/-- The status byte of a row outside the contract: the row's base is the power of two above its free bits (R51). -/
theorem toNat_unknownStatus {n : Nat} (ss : BitVec n) (hn : n < 8) :
    (unknownStatus (BitVec.ofNat 8 (2 ^ n)) ss).toNat = 2 ^ n + ss.toNat := by
  have hpow : 2 ^ n < 2 ^ 8 := Nat.pow_lt_pow_right (by decide) hn
  have hss : ss.toNat < 2 ^ 8 := ss.isLt.trans hpow
  rw [unknownStatus, BitVec.toNat_or, BitVec.toNat_ofNat, BitVec.toNat_setWidth, Nat.mod_eq_of_lt hpow,
    Nat.mod_eq_of_lt hss]
  simpa using (Nat.two_pow_add_eq_or_of_lt ss.isLt 1).symm

/-- A row outside the contract, run on its operand, records the byte it stands for as a local failure. -/
theorem exec_unknownStatus {n : Nat} {i : Instr} {ss : BitVec n} {b : Byte} {s : State} (hp : s.phase = .rxStatus)
    (he : encode i = .rsp (unknownStatus (BitVec.ofNat 8 (2 ^ n)) ss)) (hn : 2 ≤ n ∧ n < 8)
    (hb : b.toNat = 2 ^ n + ss.toNat) : exec i s = .next (failLocal .statusUnknown { s with rawStatus := b }) := by
  have hbyte : unknownStatus (BitVec.ofNat 8 (2 ^ n)) ss = b :=
    BitVec.eq_of_toNat_eq ((toNat_unknownStatus ss hn.2).trans hb.symm)
  have hbase : 2 ^ 2 ≤ 2 ^ n := Nat.pow_le_pow_right (by decide) hn.1
  rw [exec_unknown_status (hbyte ▸ he) (by omega), statusUnknown_next]
  exact ⟨hp, rfl⟩

/-- Settles O33: the four bytes of the contract, then the six rows outside it (`exec_unknownStatus`). -/
theorem statusRowsComplete : Obligations.StatusRowsComplete := by
  intro s hp
  refine ⟨exec_stOk_next.2 ⟨hp, rfl⟩, atPhase_of _ hp, atPhase_of _ hp, atPhase_of _ hp, fun i b hi => ?_⟩
  obtain ⟨ss, rfl, hb⟩ | ⟨ss, rfl, hb⟩ | ⟨ss, rfl, hb⟩ | ⟨ss, rfl, hb⟩ | ⟨ss, rfl, hb⟩ | ⟨ss, rfl, hb⟩ := hi <;>
    exact exec_unknownStatus (ss := ss) hp rfl (by decide) hb

/-- Settles O37: the body splits at `L − 3` into the data and the two bytes compared. -/
theorem verifyPhaseComparesBothBytes : Obligations.VerifyPhaseComparesBothBytes := by
  intro e s d lo hi hp hl hbody
  have hd : s.rawLen.toNat - 3 = d.length := by omega
  rw [blockTurn_verify hp, phaseVerify_body hbody, hd, List.take_left, List.drop_left]
  simp only [crcEmit, List.cons.injEq, and_true, ← apply_ite Host.Outcome.next]
  rfl

end Sys2Proof.Safety
end

section
/-! SUPPORT. The pseudo-operations of the CRC unit (spec/30_encoding.md R59): what a list of `CRC.UPD` does to the register,
and what the host reads behind it. -/

namespace Sys2Proof.Safety

open Sys2Proof.Machine

/-- A single operation in `IDLE` ends in its effect. -/
theorem execAll_single {i : Instr} {s t : State} (he : HostEffect s i t) (hp : s.phase = .idle) :
    execAll [i] s = .next t := execAll_cons_next (exec_of_hostEffect hp he)

/-- A list performed up to its end goes on with what stands behind it. -/
theorem execAll_append_next {is js : List Instr} {s t : State} (h : execAll is s = .next t) :
    execAll (is ++ js) s = execAll js t := by
  induction is generalizing s with
  | nil =>
    obtain rfl := Host.Outcome.next.inj h
    rfl
  | cons i is ih =>
    cases hx : exec i s with
    | next u =>
      rw [execAll_cons_next hx] at h
      rw [List.cons_append, execAll_cons_next hx, ih h]
    | fault r => simp only [execAll, hx, reduceCtorEq] at h
    | refused r => simp only [execAll, hx, reduceCtorEq] at h

/-- Updates fold the bytes into the register, in order, each answered `DONE`. -/
theorem execAll_crcUpd (bytes : List Byte) (s : State) (hp : s.phase = .idle) (ha : s.answer = some ⟨.done, []⟩) :
    execAll (bytes.map .crcUpd) s = .next { s with crc := crcFold s.crc bytes } := by
  induction bytes generalizing s with
  | nil => rfl
  | cons b bytes ih =>
    calc execAll ((b :: bytes).map .crcUpd) s
      _ = execAll (bytes.map .crcUpd) (done [] { s with crc := crcByte s.crc b }) :=
          execAll_cons_next (exec_of_hostEffect hp (.crcUpd b))
      _ = _ := ih _ hp rfl
      _ = _ := by simp only [done, answerHost, crcFold_cons, ← ha]

/-- `CRC.CLR` and the updates leave `crc16` of the bytes in the register (R59, R67). -/
theorem execAll_crc16 (bytes : List Byte) (s : State) (hp : s.phase = .idle) :
    execAll ([.crcClr] ++ bytes.map .crcUpd) s = .next (done [] { s with crc := crc16 bytes }) :=
  (execAll_cons_next (exec_of_hostEffect hp .crcClr)).trans (execAll_crcUpd bytes _ hp rfl)

/-- Settles O25: `CRC.EMIT` behind `execAll_crc16`. -/
theorem pseudoCrc16ReturnsTheCrc : Obligations.PseudoCrc16ReturnsTheCrc := fun bytes s hp =>
  (execAll_append_next (execAll_crc16 bytes s hp)).trans
    (execAll_single (.answered .crcEmit) hp)

@[simp] theorem flags_bit_match (s : State) : (flags s).getLsbD 0 = s.matchFlag := by
  cases h : s.matchFlag <;> simp [flags, h]

@[simp] theorem flags_bit_rxvalid (s : State) : (flags s).getLsbD 1 = s.rxvalid := by
  cases h : s.rxvalid <;> cases h' : s.matchFlag <;> simp [flags, h, h']

/-- The comparison of `CRC.VFY` with two bytes joined low byte first is the comparison with the emitted CRC (R50, R68). -/
theorem decide_eq_joinBytes (c : Crc) (lo hi : Byte) : decide (c = joinBytes lo hi) = decide ([lo, hi] = crcEmit c) :=
  decide_eq_decide.2 (eq_comm.trans (eq_crcEmit_iff lo hi c).symm)

/-- `CRC.VFY` and the read of `FLAGS` behind it: the host reads the flags that the comparison has left. -/
theorem execAll_crcVfy_flags (lo hi : Byte) (s : State) (hp : s.phase = .idle) :
    execAll [.crcVfy (joinBytes lo hi), .regRd 0x02#8] s =
      .next (done [flags { s with matchFlag := decide ([lo, hi] = crcEmit s.crc) }]
        { s with matchFlag := decide ([lo, hi] = crcEmit s.crc) }) := by
  rw [← decide_eq_joinBytes]
  calc execAll [.crcVfy (joinBytes lo hi), .regRd 0x02#8] s
    _ = execAll [.regRd 0x02#8] (done [] { s with matchFlag := decide (s.crc = joinBytes lo hi) }) :=
        execAll_cons_next (exec_of_hostEffect hp (.crcVfy _))
    _ = _ := execAll_single (.answered (.register rfl)) hp

/-- Settles O26: the comparison and the read of `FLAGS` behind `execAll_crc16`. -/
theorem pseudoCheckComparesTheCrc : Obligations.PseudoCheckComparesTheCrc := fun bytes lo hi s hp =>
  ⟨_, (execAll_append_next (execAll_crc16 bytes s hp)).trans (execAll_crcVfy_flags lo hi (done [] _) hp),
    flags_bit_match _, flags_bit_rxvalid _⟩

end Sys2Proof.Safety
end

section
/-! SUPPORT. The pseudocode of an exchange (spec/42_rx_decoder.md R90) and the well-formed response (spec/30_encoding.md
R48, R50): what a response that is accepted looks like, and what is left of the state by one. -/

namespace Sys2Proof.Safety

open Sys2Proof.Machine

/-! ## A well-formed response and its body -/

/-- The body of the response to the data `d`: the data and the CRC over length byte and data (R49, R50). -/
def goodBody (d : List Byte) : List Byte := d ++ crcEmit (crc16 (BitVec.ofNat 8 (d.length + 3) :: d))

theorem goodResponse_eq (d : List Byte) :
    goodResponse d = 0#8 :: BitVec.ofNat 8 (d.length + 3) :: goodBody d := rfl

@[simp] theorem goodBody_length (d : List Byte) : (goodBody d).length = d.length + 2 := by
  simp [goodBody]

/-- The length byte of a well-formed response does not wrap (R49). -/
theorem toNat_lengthByte {d : List Byte} (hd : d.length ≤ 252) :
    (BitVec.ofNat 8 (d.length + 3)).toNat = d.length + 3 := by
  rw [BitVec.toNat_ofNat]; omega

/-- A body whose length byte is `l` is verified: its last two bytes are the CRC over `l` and the bytes before them, low
byte first (R50, R97). -/
def BodyCarriesCrc (l : Byte) (b : List Byte) : Prop :=
  b[l.toNat - 3]? = some (lowByte (crc16 (l :: b.take (l.toNat - 3)))) ∧
    b[l.toNat - 2]? = some (highByte (crc16 (l :: b.take (l.toNat - 3))))

/-- A body that carries its CRC is the body to the data before it. -/
theorem goodBody_of_carriesCrc {l : Byte} {b : List Byte} (hl : 3 ≤ l.toNat) (hb : b.length = l.toNat - 1)
    (hc : BodyCarriesCrc l b) : ∃ d, d.length ≤ 252 ∧ l = BitVec.ofNat 8 (d.length + 3) ∧ b = goodBody d := by
  obtain ⟨hlo, hhi⟩ := hc
  have hlt := l.isLt
  have hlen : (b.take (l.toNat - 3)).length + 3 = l.toNat := by rw [List.length_take]; omega
  have hbyte : l = BitVec.ofNat 8 ((b.take (l.toNat - 3)).length + 3) := by
    rw [hlen, BitVec.ofNat_toNat, BitVec.setWidth_eq]
  have htail : b.drop (l.toNat - 3) = crcEmit (crc16 (l :: b.take (l.toNat - 3))) := by
    rw [List.drop_eq_getElem?_toList_append, hlo, show l.toNat - 3 + 1 = l.toNat - 2 by omega,
      List.drop_eq_getElem?_toList_append, hhi, List.drop_of_length_le (by omega)]
    rfl
  refine ⟨b.take (l.toNat - 3), by omega, hbyte, ?_⟩
  rw [goodBody, ← hbyte, ← htail, List.take_append_drop]

theorem carriesCrc_goodBody {d : List Byte} (hd : d.length ≤ 252) :
    BodyCarriesCrc (BitVec.ofNat 8 (d.length + 3)) (goodBody d) := by
  have hl := toNat_lengthByte hd
  simp [BodyCarriesCrc, hl, goodBody, crcEmit]

/-! ## The pseudocode, branch by branch -/

/-- The state of the pseudocode when the envelope has gone out. -/
def envelopeSent (f : List Byte) (s : State) : State := chWrite ([0xFD#8, s.txlen] ++ f) (startExchange s)

/-- The state of the pseudocode when a whole body `b` has been read behind status 0 and length byte `l`, and its CRC has
been recomputed. -/
def bodyReceived (l : Byte) (b rest : List Byte) (s : State) : State :=
  { s with
    chIn := rest, rawStatus := 0#8, rawLen := l, rxbuf := Memory.writeRange s.rxbuf 0 b,
    vcrc := crc16 (l :: b.take (l.toNat - 3)) }

/-- The pseudocode ends with `Ok` only behind status 0, a length byte of at least 3, a whole body, and its CRC. -/
theorem exchange_ok_inv {f : List Byte} {s : State} (h : (exchange f s).resTag = .ok) :
    ∃ l input, s.chIn = 0#8 :: l :: input ∧ 3 ≤ l.toNat ∧ l.toNat - 1 ≤ input.length ∧
      BodyCarriesCrc l (input.take (l.toNat - 1)) := by
  simp only [exchange, chWrite_chIn, startExchange_chIn] at h
  -- A branch that fails is closed by its tag.
  split at h
  · cases h
  next status input hin =>
  iterate 4 (split at h; · cases h)
  next hrecv hparam hexec hknown =>
  have hstatus : status = 0#8 := by
    obtain hs | hs | hs | hs | hs := status_cases status
    · exact hs
    all_goals contradiction
  iterate 3 (split at h; · cases h)
  next l input hmin hwhole =>
  split at h
  · exact ⟨l, input, by rw [hin, hstatus], by omega, by rw [List.length_take] at hwhole; omega, by assumption⟩
  · cases h

/-- With a whole body behind status 0 and a length byte of at least 3, and with the body's CRC, the
pseudocode completes the exchange. -/
theorem exchange_of_body {f input : List Byte} {l : Byte} {s : State} (hin : s.chIn = 0#8 :: l :: input)
    (hl : 3 ≤ l.toNat) (hb : l.toNat - 1 ≤ input.length) (hc : BodyCarriesCrc l (input.take (l.toNat - 1))) :
    exchange f s =
      completeExchange (bodyReceived l (input.take (l.toNat - 1)) (input.drop (l.toNat - 1)) (envelopeSent f s)) := by
  have hlen : ¬ (input.take (l.toNat - 1)).length < l.toNat - 1 := by rw [List.length_take]; omega
  obtain ⟨hlo, hhi⟩ := hc
  simp only [exchange, chWrite_chIn, startExchange_chIn, hin]
  rw [if_neg (by decide), if_neg (by decide), if_neg (by decide), if_neg (by decide), if_neg (by omega), if_neg hlen,
    if_pos ⟨hlo, hhi⟩]
  rfl

/-- A well-formed response completes the exchange, whatever stands behind it. -/
theorem exchange_goodResponse {f d rest : List Byte} {s : State} (hd : d.length ≤ 252)
    (hin : s.chIn = goodResponse d ++ rest) :
    exchange f s =
      completeExchange (bodyReceived (BitVec.ofNat 8 (d.length + 3)) (goodBody d) rest (envelopeSent f s)) := by
  have hl := toNat_lengthByte hd
  have htake : (goodBody d ++ rest).take (d.length + 2) = goodBody d := List.take_left' (goodBody_length d)
  have hdrop : (goodBody d ++ rest).drop (d.length + 2) = rest := List.drop_left' (goodBody_length d)
  have hx := exchange_of_body (f := f) (s := s) (input := goodBody d ++ rest) hin (by omega) (by simp [hl])
  simp only [hl, show d.length + 3 - 1 = d.length + 2 from rfl, htake, hdrop] at hx
  exact hx (carriesCrc_goodBody hd)

/-- A range just written reads back up to any place in it. -/
theorem readRange_writeRange_append (m : Memory) (d e : List Byte) :
    Memory.readRange (Memory.writeRange m 0 (d ++ e)) 0 d.length = some d := by
  refine (Memory.readRange_eq_some _ 0 _ _).2 ⟨rfl, fun k hk => ?_⟩
  rw [Memory.read_writeRange, if_pos ⟨by omega, by rw [List.length_append]; omega⟩, Nat.zero_add, Nat.sub_zero,
    List.getElem?_append_left hk]

/-- Settles O42: what is accepted is a well-formed response (`exchange_ok_inv`, `goodBody_of_carriesCrc`), and a well-formed
response is accepted, with its data (`exchange_goodResponse`). -/
theorem okExactlyForAWellFormedResponse : Obligations.OkExactlyForAWellFormedResponse := by
  refine ⟨fun f s => ⟨fun h => ?_, ?_⟩, fun f d rest s hd hin => ?_⟩
  · obtain ⟨l, input, hin, hl, hlen, hc⟩ := exchange_ok_inv h
    obtain ⟨d, hd, rfl, hb⟩ := goodBody_of_carriesCrc hl (by rw [List.length_take]; omega) hc
    refine ⟨d, input.drop ((BitVec.ofNat 8 (d.length + 3)).toNat - 1), hd, ?_⟩
    rw [hin, goodResponse_eq, ← hb, List.cons_append, List.cons_append, List.take_append_drop]
  · rintro ⟨d, rest, hd, hin⟩
    rw [exchange_goodResponse hd hin, completeExchange_resTag]
  · rw [exchange_goodResponse hd hin]
    refine ⟨rfl, ?_, readRange_writeRange_append s.rxbuf d _, rfl, rfl⟩
    rw [completeExchange_dlen]
    show BitVec.ofNat 8 (d.length + 3) - 3#8 = _
    rw [BitVec.ofNat_add, BitVec.add_sub_cancel]

end Sys2Proof.Safety
end

section
/-! SUPPORT. The CRC unit's functions (spec/40_crc.md R65 to R68): the bit step in unsigned arithmetic and as an invertible
linear map, and what follows for bytes and sequences (R73). -/

namespace Sys2Proof.Machine

/-! ## The bit step in unsigned arithmetic -/

theorem getLsbD_top (c : Crc) : c.getLsbD 15 = decide (0x8000 ≤ c.toNat) := by
  rw [← BitVec.msb_eq_getLsbD_last, BitVec.msb_eq_decide]

theorem toNat_shiftLeft_one (c : Crc) : (c <<< 1).toNat = 2 * c.toNat % 65536 := by
  rw [BitVec.toNat_shiftLeft, Nat.shiftLeft_eq, Nat.mul_comm]

/-- Settles O16: the top bit is the comparison with `0x8000` (`getLsbD_top`). -/
theorem crcBitIsTheStatedStep : Obligations.CrcBitIsTheStatedStep := by
  intro c d
  rw [← getLsbD_top, crcBit_eq, BitVec.toNat_xor, toNat_shiftLeft_one, ite_not]
  split
  · exact Nat.xor_zero _
  · rfl

/-! ## The bit step is linear and loses nothing -/

/-- What a bit step puts in by exclusive or behind its shift (R65). -/
def polyIf (p : Bool) : Crc := if p then Config.crcPoly else 0#16

theorem polyIf_xor (p q : Bool) : polyIf (p ^^ q) = polyIf p ^^^ polyIf q := by
  cases p <;> cases q <;> rfl

/-- R73 item 2. -/
theorem crcBit_eq_polyIf (c : Crc) (d : Bool) : crcBit c d = (c <<< 1) ^^^ polyIf (d ^^ c.getLsbD 15) := by
  unfold crcBit polyIf
  split
  · rfl
  · exact BitVec.xor_zero.symm

/-- R73 item 4 for one bit: the shift, the choice of the polynomial and the exclusive or are each linear. -/
theorem crcBit_xor (c c' : Crc) (d d' : Bool) : crcBit (c ^^^ c') (d ^^ d') = crcBit c d ^^^ crcBit c' d' := by
  have htops : ((d ^^ d') ^^ (c ^^^ c').getLsbD 15) = ((d ^^ c.getLsbD 15) ^^ (d' ^^ c'.getLsbD 15)) := by
    rw [BitVec.getLsbD_xor, Bool.xor_assoc, Bool.xor_assoc, Bool.xor_left_comm d']
  rw [crcBit_eq_polyIf, crcBit_eq_polyIf, crcBit_eq_polyIf, htops, polyIf_xor, BitVec.shiftLeft_xor_distrib]
  ac_rfl

/-- The shift leaves bit 0 clear and the polynomial sets it, so a register that steps to 0 had its top bit clear, and the
shift lost nothing. -/
theorem crcBit_false_eq_zero {c : Crc} : crcBit c false = 0#16 ↔ c = 0#16 := by
  refine ⟨fun h => ?_, by rintro rfl; rfl⟩
  rw [crcBit_eq_polyIf, Bool.false_xor, BitVec.xor_eq_zero_iff] at h
  cases htop : c.getLsbD 15 with
  | true =>
    have hbit := congrArg (BitVec.getLsbD · 0) (htop ▸ h)
    simp [polyIf, Config.crcPoly] at hbit
  | false =>
    have hshift : 2 * c.toNat % 65536 = 0 := (toNat_shiftLeft_one c).symm.trans (congrArg BitVec.toNat (htop ▸ h))
    have hsmall : ¬ 0x8000 ≤ c.toNat := of_decide_eq_false (getLsbD_top c ▸ htop)
    exact BitVec.eq_of_toNat_eq (show c.toNat = 0 by omega)

/-- On one data bit two registers step alike only when they are equal. -/
theorem crcBit_left_inj {c c' : Crc} {d : Bool} : crcBit c d = crcBit c' d ↔ c = c' := by
  rw [← BitVec.xor_eq_zero_iff, ← crcBit_xor, Bool.xor_self, crcBit_false_eq_zero, BitVec.xor_eq_zero_iff]

/-! ## Bytes -/

/-- R66: the eight bit steps, bit 0 first. -/
theorem crcByte_eq (c : Crc) (b : Byte) :
    crcByte c b =
      crcBit (crcBit (crcBit (crcBit (crcBit (crcBit (crcBit (crcBit c (b.getLsbD 0)) (b.getLsbD 1)) (b.getLsbD 2))
        (b.getLsbD 3)) (b.getLsbD 4)) (b.getLsbD 5)) (b.getLsbD 6)) (b.getLsbD 7) := rfl

theorem crcByte_xor (c c' : Crc) (b b' : Byte) : crcByte (c ^^^ c') (b ^^^ b') = crcByte c b ^^^ crcByte c' b' := by
  simp only [crcByte_eq, BitVec.getLsbD_xor, crcBit_xor]

theorem crcByte_left_inj {c c' : Crc} {b : Byte} : crcByte c b = crcByte c' b ↔ c = c' := by
  simp only [crcByte_eq, crcBit_left_inj]

/-- The zero register keeps 0 through a zero byte (R70). -/
@[simp] theorem crcByte_zero : crcByte 0#16 0#8 = 0#16 := by decide

/-- A single 1 bit leaves a trace in the zero register, wherever in the byte it stands. -/
theorem crcByte_oneBit_ne_zero : ∀ k < 8, crcByte 0#16 (1#8 <<< k) ≠ 0#16 := by decide

/-- Folded into one register, a byte and the byte with one bit flipped leave different registers. -/
theorem crcByte_flip_ne (c : Crc) (b : Byte) {k : Nat} (hk : k < 8) : crcByte c (b ^^^ (1#8 <<< k)) ≠ crcByte c b := by
  have hflip : b ^^^ (1#8 <<< k) ^^^ b = 1#8 <<< k := by
    rw [BitVec.xor_comm, ← BitVec.xor_assoc, BitVec.xor_self, BitVec.zero_xor]
  rw [Ne, ← BitVec.xor_eq_zero_iff, ← crcByte_xor, BitVec.xor_self, hflip]
  exact crcByte_oneBit_ne_zero k hk

/-! ## Sequences -/

theorem crcFold_xor {a b : List Byte} (hlen : a.length = b.length) (c c' : Crc) :
    crcFold (c ^^^ c') (List.zipWith (· ^^^ ·) a b) = crcFold c a ^^^ crcFold c' b := by
  induction a generalizing b c c' with
  | nil =>
    obtain rfl := List.eq_nil_of_length_eq_zero hlen.symm
    rfl
  | cons x a ih =>
    obtain ⟨y, b, rfl⟩ := List.exists_cons_of_length_eq_add_one hlen.symm
    rw [List.zipWith_cons_cons, crcFold_cons, crcFold_cons, crcFold_cons, crcByte_xor, ih (Nat.succ.inj hlen)]

/-- Settles O17: linearity of the byte step and of the fold from two zero registers. -/
theorem crcIsLinear : Obligations.CrcIsLinear :=
  ⟨crcByte_xor, fun _ _ hlen => crcFold_xor hlen 0#16 0#16⟩

theorem crcFold_left_inj {c c' : Crc} {s : List Byte} : crcFold c s = crcFold c' s ↔ c = c' := by
  induction s generalizing c c' with
  | nil => rfl
  | cons b s ih => rw [crcFold_cons, crcFold_cons, ih, crcByte_left_inj]

@[simp] theorem crc16_zeros (n : Nat) : crc16 (List.replicate n 0#8) = 0#16 := by
  induction n with
  | zero => rfl
  | succ n ih => rwa [List.replicate_succ, crc16_eq, crcFold_cons, crcByte_zero, ← crc16_eq]

/-- Settles O19: leading zero bytes leave the register of 0 the sequence starts from. -/
theorem zeroBytesInFrontAreInvisible : Obligations.ZeroBytesInFrontAreInvisible :=
  ⟨crc16_zeros, fun n s => by rw [crc16_append, crc16_zeros, crc16_eq]⟩

theorem crc16_flip_ne (u v : List Byte) (b : Byte) {k : Nat} (hk : k < 8) :
    crc16 (u ++ [b ^^^ (1#8 <<< k)] ++ v) ≠ crc16 (u ++ [b] ++ v) := by
  simp only [crc16_append, crcFold_cons, crcFold_nil, Ne, crcFold_left_inj]
  exact crcByte_flip_ne _ _ hk

/-- Settles O18: the flipped byte changes the register and the bytes behind it cannot hide that (`crc16_flip_ne`); a single
1 bit among zeros is a flip in a sequence whose CRC is 0. -/
theorem oneFlippedBitChangesTheCrc : Obligations.OneFlippedBitChangesTheCrc := by
  refine ⟨fun u v b k hk => crc16_flip_ne u v b hk, fun m n k hk => ?_⟩
  have hzeros : crc16 (List.replicate m 0#8 ++ [0#8] ++ List.replicate n 0#8) = 0#16 := by
    rw [← List.replicate_one, List.replicate_append_replicate, List.replicate_append_replicate, crc16_zeros]
  have hflip := crc16_flip_ne (List.replicate m 0#8) (List.replicate n 0#8) 0#8 hk
  rwa [hzeros, BitVec.zero_xor] at hflip

end Sys2Proof.Machine
end

section
/-! SUPPORT. The two bytes of a 16-bit value as numbers (spec/30_encoding.md R50, spec/40_crc.md R68), and the operations of
the CRC unit (R69 to R72). -/

namespace Sys2Proof

theorem toNat_joinBytes (lo hi : Byte) : (joinBytes lo hi).toNat = lo.toNat + 256 * hi.toNat := by
  have hlo := lo.isLt
  have hhi := hi.isLt
  have hshift : (hi.setWidth 16 <<< 8).toNat = 2 ^ 8 * hi.toNat := by
    rw [BitVec.toNat_shiftLeft, BitVec.toNat_setWidth, Nat.shiftLeft_eq]; omega
  rw [joinBytes, BitVec.toNat_or, hshift, BitVec.toNat_setWidth, Nat.mod_eq_of_lt (by omega), Nat.lor_comm,
    ← Nat.two_pow_add_eq_or_of_lt hlo, Nat.add_comm]

theorem joinBytes_inj {lo hi lo' hi' : Byte} : joinBytes lo hi = joinBytes lo' hi' ↔ lo = lo' ∧ hi = hi' := by
  refine ⟨fun h => ⟨?_, ?_⟩, fun ⟨hlo, hhi⟩ => by rw [hlo, hhi]⟩
  · simpa using congrArg lowByte h
  · simpa using congrArg highByte h

theorem lowByte_eq_ofNat (v : Crc) : lowByte v = BitVec.ofNat 8 (v.toNat % 256) := by
  apply BitVec.eq_of_toNat_eq
  simp [lowByte]

theorem highByte_eq_ofNat (v : Crc) : highByte v = BitVec.ofNat 8 (v.toNat / 256) := by
  apply BitVec.eq_of_toNat_eq
  simp [highByte, Nat.shiftRight_eq_div_pow]

end Sys2Proof

namespace Sys2Proof.Machine

/-- Settles O20: the two bytes behind the sequence are `crcEmit (crc16 s)` itself. -/
theorem crcIsSelfConsistent : Obligations.CrcIsSelfConsistent := by
  refine ⟨rfl, fun s b => ?_, ?_⟩
  · rw [crc16_append, crcFold_cons, crcFold_nil, crcByte_eq]
  · rintro s _ rfl
    rw [List.take_left, List.drop_left]
    refine ⟨rfl, lowByte (crc16 s), highByte (crc16 s), rfl, joinBytes_bytes _, ?_⟩
    rw [← toNat_joinBytes, joinBytes_bytes]

/-! ## `BADARG` -/

theorem acceptWord_noArg_nonzero {op : Byte} {i : Instr} (hop : (op, i) ∈ noArgOps) {arg : Crc} (harg : arg ≠ 0#16)
    (s : State) : acceptWord (hostWord op arg) s = .next (refuse .badArg s) :=
  acceptWord_error ((decodeHost_noArg arg hop).trans (noArg_nonzero i harg))

theorem acceptWord_byteArg_nonzero {op : Byte} {mk : Byte → Instr} (hop : (op, mk) ∈ byteArgOps) {arg : Crc}
    (harg : highByte arg ≠ 0#8) (s : State) : acceptWord (hostWord op arg) s = .next (refuse .badArg s) :=
  acceptWord_error ((decodeHost_byteArg arg hop).trans (byteArg_nonzero mk harg))

/-! ## The operations -/

/-- Settles O21: word, refusal, effect. -/
theorem crcClrClearsTheRegister : Obligations.CrcClrClearsTheRegister :=
  ⟨decodeReadsBackEncode .crcClr,
    fun _ s harg => acceptWord_noArg_nonzero (i := .crcClr) (by simp [noArgOps]) harg s,
    fun _ hp => exec_of_hostEffect hp .crcClr⟩

/-- Settles O22: word, refusal, effect, and the three values of R70. -/
theorem crcUpdFoldsOneByte : Obligations.CrcUpdFoldsOneByte :=
  ⟨fun b => decodeReadsBackEncode (.crcUpd b),
    fun _ s harg => acceptWord_byteArg_nonzero (mk := .crcUpd) (by simp [byteArgOps]) harg s,
    fun b _ hp => exec_of_hostEffect hp (.crcUpd b), crcByte_zero, by decide, by decide⟩

/-- Settles O23: word, refusal, effect; the two bytes of the register are its remainder and quotient by 256. -/
theorem crcEmitReturnsLowThenHigh : Obligations.CrcEmitReturnsLowThenHigh := by
  refine ⟨decodeReadsBackEncode .crcEmit,
    fun _ s harg => acceptWord_noArg_nonzero (i := .crcEmit) (by simp [noArgOps]) harg s, fun s hp => ?_⟩
  rw [← lowByte_eq_ofNat, ← highByte_eq_ofNat]
  exact exec_of_hostAnswer hp .crcEmit

/-- Settles O24: word, effect, and the value of the two bytes in either order. -/
theorem crcVfySetsMatch : Obligations.CrcVfySetsMatch := by
  refine ⟨decodeHost_crcVfy, fun w _ hp => exec_of_hostEffect hp (.crcVfy w), toNat_joinBytes, fun lo hi => ?_⟩
  rw [joinBytes_inj]
  exact ⟨And.left, fun h => ⟨h, h.symm⟩⟩

end Sys2Proof.Machine
end

section
/-! SUPPORT. The transmit side (spec/41_tx_encoder.md): which steps send on the channel (R84, spec/42_rx_decoder.md
R104), the two channel rows as steps (R83, R92), and the operations `TXB.CLR`, `TXB.PUSH`, `XFER.EXEC` and `REQ` (R80 to
R83). -/

namespace Sys2Proof.Safety

open Sys2Proof.Machine

/-! ## What is sent -/

/-- The move from `s` to `t` sends nothing and is not the end of phase `TX`. -/
def SendsNothing (s t : State) : Prop := t.chSent = s.chSent ∧ ¬(s.phase = .tx ∧ t.phase = .rxStatus)

/-- The move from `s` to `t` ends phase `TX` and sends one envelope of the frame in the buffer (R83). -/
def SendsEnvelope (s t : State) : Prop :=
  s.phase = .tx ∧ t.phase = .rxStatus ∧ ∃ f, frameOf s = some f ∧ t.chSent = s.chSent ++ ([0xFD#8, s.txlen] ++ f)

theorem sendsNothing_of_phase_eq {s t : State} (hsent : t.chSent = s.chSent) (hp : t.phase = s.phase) :
    SendsNothing s t :=
  ⟨hsent, fun ⟨htx, hrx⟩ => by simp [hp, htx] at hrx⟩

theorem sendsNothing_of_phase_ne_tx {s t : State} (hsent : t.chSent = s.chSent) (hp : s.phase ≠ .tx) :
    SendsNothing s t :=
  ⟨hsent, fun ⟨htx, _⟩ => hp htx⟩

/-- No host operation writes to the channel, and the log survives `XFER.FLUSH` and `SYS.RESET` (R103, R112). -/
theorem chSent_of_hostEffect {s t : State} {i : Instr} (he : HostEffect s i t) : t.chSent = s.chSent := by
  cases he <;> rfl

/-- Of the phases only `TX` sends. -/
theorem sends_of_exchangeStep {e : Bool} {s t : State} (hx : ExchangeStep e s t) :
    SendsNothing s t ∨ SendsEnvelope s t := by
  cases hx with
  | send hp hf => exact .inr ⟨hp, rfl, _, hf, rfl⟩
  | wait => exact .inl (sendsNothing_of_phase_eq rfl rfl)
  | statusTimeout hp | statusOk hp | chipError hp | statusUnknown hp | lenTimeout hp | lenBad hp | lenOk hp
  | bodyShort hp | bodyWhole hp | crcMatches hp | crcMismatch hp | complete hp =>
    exact .inl (sendsNothing_of_phase_ne_tx rfl (by simp [hp]))

/-- Settles O57: outside an exchange nothing is sent, and in one `sends_of_exchangeStep` decides. -/
theorem oneEnvelopePerExchangeIsSent : Obligations.OneEnvelopePerExchangeIsSent := by
  intro s t h
  cases step_next_iff_stepEffect.1 h with
  | idle | refused | timerSilent | present | peerSend | peerTake => exact .inl (sendsNothing_of_phase_eq rfl rfl)
  | performed hn hp hq hd he => exact .inl (sendsNothing_of_phase_ne_tx (chSent_of_hostEffect he :) (by simp [hp]))
  | exchange ha hx => exact sends_of_exchangeStep (s := turnTaken s) hx
  | hardReset => exact .inl ⟨rfl, fun ⟨_, hrx⟩ => by simp at hrx⟩

/-! ## The channel rows as steps -/

/-- Settles O8: the block's turn in `TX` is `REQ`, and in `RX_STATUS` with a byte there the row of that byte. -/
theorem stepRunsTheChannelRow : Obligations.StepRunsTheChannelRow := by
  refine ⟨fun s i hn hp hd => ?_, fun s b rest i hn hp hin hd => ?_⟩
  · obtain ⟨e, ha⟩ := blockActs_of_blockNext hn
    obtain rfl : .req = i := Except.ok.inj hd
    rw [step_of_blockActs ha, blockTurn_tx (s := turnTaken s) hp]
  · obtain ⟨e, ha⟩ := blockActs_of_blockNext hn
    obtain rfl : decodeStatus b = i := Except.ok.inj hd
    rw [step_of_blockActs ha, blockTurn_rxStatus (s := turnTaken s) hp, phaseRxStatus_cons (s := turnTaken s) hin]

/-! ## The operations -/

/-- Settles O27: word, refusal, effect. -/
theorem txbClrEmptiesTheFrame : Obligations.TxbClrEmptiesTheFrame :=
  ⟨decodeReadsBackEncode .txbClr,
    fun _ s harg => acceptWord_noArg_nonzero (i := .txbClr) (by simp [noArgOps]) harg s,
    fun _ hp => exec_of_hostEffect hp .txbClr⟩

/-- Settles O28: word, refusal of the argument, refusal on a full buffer, and the write at index `TXLEN`. -/
theorem txbPushAppendsOrIsRefused : Obligations.TxbPushAppendsOrIsRefused := by
  refine ⟨fun b => decodeReadsBackEncode (.txbPush b),
    fun _ s harg => acceptWord_byteArg_nonzero (mk := .txbPush) (by simp [byteArgOps]) harg s,
    fun b s hp hfull => exec_of_hostAnswer hp (.txFull b (congrArg BitVec.toNat hfull)), fun b s hp hroom => ?_⟩
  have hne : s.txlen.toNat ≠ 255 := fun h => hroom (BitVec.eq_of_toNat_eq h)
  have hlen : BitVec.ofNat 8 (s.txlen.toNat + 1) = s.txlen + 1#8 := by
    rw [BitVec.ofNat_add, BitVec.ofNat_toNat, BitVec.setWidth_eq]
  refine ⟨Memory.write s.txbuf s.txlen.toNat b, ?_, Memory.read_write_same _ _ b,
    fun a ha => Memory.read_write_other _ b ha.symm⟩
  rw [hlen]
  exact exec_of_hostEffect hp (.txbPush b hne)

/-- Settles O30: word, refusal of the argument, and the three ranges of `TXLEN`. -/
theorem xferExecAdmitsFiveTo254Bytes : Obligations.XferExecAdmitsFiveTo254Bytes :=
  ⟨decodeReadsBackEncode .xferExec,
    fun _ s harg => acceptWord_noArg_nonzero (i := .xferExec) (by simp [noArgOps]) harg s,
    fun _ hp hshort => exec_of_hostAnswer hp (.frameShort hshort),
    fun _ hp hlong => exec_of_hostAnswer hp (.frameLong (Nat.lt_of_succ_lt_succ hlong)),
    fun s hp hmin hmax => ⟨startExchange s, exec_of_hostEffect hp (.start hmin hmax), startExchange_phase s⟩⟩

/-- Settles O32: `REQ` in `TX` with its frame written. -/
theorem reqSendsTheEnvelope : Obligations.ReqSendsTheEnvelope :=
  fun _ f hp hf => exec_req_next.2 ⟨hp, f, hf, rfl⟩

end Sys2Proof.Safety
end

section
/-! SUPPORT. Seven steps compute the pseudocode of an exchange (spec/42_rx_decoder.md R90, R100): the pseudocode, cut as
the phases cut it, and for each part the run that computes it. A part begins where the machine stands before a phase, in
the state of the pseudocode but for `PHASE`, which the pseudocode does not know. -/

namespace Sys2Proof.Safety

open Sys2Proof.Machine

/-! ## The parts of the pseudocode -/

/-- R90 from the check of the CRC on, with the whole body `b` read. -/
def exchangeFromVerify (b : List Byte) (s : State) : State :=
  let s := { s with vcrc := crc16 (s.rawLen :: b.take (s.rawLen.toNat - 3)) }
  if b[s.rawLen.toNat - 3]? = some (lowByte s.vcrc) ∧ b[s.rawLen.toNat - 2]? = some (highByte s.vcrc) then
    completeExchange s
  else fail .communicationError 99#8 .crcMismatch s

/-- The bytes of the body that have arrived, and no byte behind them. -/
def bodyArrived (s : State) : List Byte := s.chIn.take (s.rawLen.toNat - 1)

/-- The bytes that have arrived are taken from `ch.in` and stored. -/
def bodyStored (s : State) : State :=
  { s with chIn := s.chIn.drop (s.rawLen.toNat - 1), rxbuf := Memory.writeRange s.rxbuf 0 (bodyArrived s) }

/-- R90 from the read of the body on. -/
def exchangeFromBody (s : State) : State :=
  if (bodyArrived s).length < s.rawLen.toNat - 1 then fail .communicationError 99#8 .bodyShort (bodyStored s)
  else exchangeFromVerify (bodyArrived s) (bodyStored s)

/-- R90 from the read of the length byte on. -/
def exchangeFromLen (s : State) : State :=
  match s.chIn with
  | [] => fail .communicationError 99#8 .lenTimeout s
  | l :: input =>
    let s := { s with chIn := input, rawLen := l }
    if l.toNat < 3 then fail .communicationError 99#8 .lenBad s else exchangeFromBody s

/-- R90 from the read of the status byte on. -/
def exchangeFromStatus (s : State) : State :=
  match s.chIn with
  | [] => fail .communicationError 99#8 .statusTimeout s
  | status :: input =>
    let s := { s with chIn := input, rawStatus := status }
    if status = 1#8 then fail .receiveError 1#8 .statusNonzero s
    else if status = 2#8 then fail .paramError 2#8 .statusNonzero s
    else if status = 3#8 then fail .executeError 3#8 .statusNonzero s
    else if 4 ≤ status.toNat then fail .communicationError 99#8 .statusUnknown s
    else exchangeFromLen s

/-- The parts, put together behind the sending of the envelope, are the pseudocode. -/
theorem exchange_eq_parts (f : List Byte) (s : State) : exchange f s = exchangeFromStatus (envelopeSent f s) := rfl

/-! ## Runs of the block alone -/

/-- `k` steps of the machine lead from `s` to `t`. -/
def Runs (k : Nat) (s t : State) : Prop := Host.Core.run Sys2Proof.core k s = .next t

theorem Runs.succ {k : Nat} {s t u : State} (h : step s = .next t) (hr : Runs k t u) : Runs (k + 1) s u :=
  (run_succ_of_step h).trans hr

/-- With no turn left and no word presented an idle block stays as it is. -/
theorem runs_idle {s : State} (k : Nat) (ht : s.turns = []) (hq : s.hostq = []) (hp : s.phase = .idle) :
    Runs k s s := by
  induction k with
  | zero => rfl
  | succ k ih => exact ih.succ ((step_nil ht).trans (blockTurn_idle_nil hp hq))

/-- With no turn left a step of a running exchange is its phase, the timer ending a read that waits. -/
theorem runs_exchangeStep {k : Nat} {s t u : State} (ht : s.turns = []) (hx : ExchangeStep true s t)
    (hr : Runs k t u) : Runs (k + 1) s u :=
  hr.succ ((step_nil ht).trans (blockTurn_of_exchangeStep hx))

/-- A phase that ends the exchange ends the run: the steps left over change nothing. -/
theorem runs_last_exchangeStep {k : Nat} {s t : State} (ht : s.turns = []) (hq : s.hostq = [])
    (hx : ExchangeStep true s t) (hp : t.phase = .idle) : Runs (k + 1) s t := by
  obtain ⟨hhostq, hturns⟩ := queues_of_exchangeStep hx
  exact runs_exchangeStep ht hx (runs_idle k (hturns.trans ht) (hhostq.trans hq) hp)

/-! ## The run from each phase -/

/-- The comparison of the pseudocode, byte by byte, is the machine's comparison of the whole tail (R50). -/
theorem carriesCrc_iff_drop {l : Byte} {b : List Byte} (hl : 3 ≤ l.toNat) (hb : b.length = l.toNat - 1) :
    BodyCarriesCrc l b ↔ b.drop (l.toNat - 3) = crcEmit (crc16 (l :: b.take (l.toNat - 3))) := by
  obtain ⟨lo, hi, htail⟩ := List.length_eq_two.1 (show (b.drop (l.toNat - 3)).length = 2 by
    rw [List.length_drop]; omega)
  have hlo : b[l.toNat - 3]? = some lo := by rw [← Nat.add_zero (l.toNat - 3), ← List.getElem?_drop, htail]; rfl
  have hhi : b[l.toNat - 2]? = some hi := by
    rw [show l.toNat - 2 = l.toNat - 3 + 1 by omega, ← List.getElem?_drop, htail]; rfl
  simp [BodyCarriesCrc, hlo, hhi, htail, crcEmit]

/-- A whole buffer range just written reads back, its length given as a number. -/
theorem readRange_writeRange_of_length {m : Memory} {bs : List Byte} {n : Nat} (h : bs.length = n) :
    Memory.readRange (Memory.writeRange m 0 bs) 0 n = some bs := by
  rw [← h, Memory.readRange_writeRange]

section
variable {s : State} (ht : s.turns = []) (hq : s.hostq = [])
include ht hq

theorem runs_verify {b : List Byte} (k : Nat) (hl : 3 ≤ s.rawLen.toNat) (hb : bodyOf s = some b) :
    Runs (k + 2) { s with phase := .verify } (exchangeFromVerify b s) := by
  have hiff := carriesCrc_iff_drop hl (Memory.readRange_length hb)
  by_cases hc : BodyCarriesCrc s.rawLen b
  · rw [show exchangeFromVerify b s = completeExchange _ from if_pos hc]
    exact runs_exchangeStep ht (.crcMatches rfl hb (hiff.1 hc)) (runs_last_exchangeStep ht hq (.complete rfl) rfl)
  · rw [show exchangeFromVerify b s = fail _ _ _ _ from if_neg hc]
    exact runs_last_exchangeStep ht hq (.crcMismatch rfl hb (hc ∘ hiff.2)) rfl

theorem runs_rxBody (k : Nat) (hl : 3 ≤ s.rawLen.toNat) :
    Runs (k + 3) { s with phase := .rxBody } (exchangeFromBody s) := by
  obtain hshort | hwhole := Nat.lt_or_ge s.chIn.length (s.rawLen.toNat - 1)
  · have hall : bodyArrived s = s.chIn := List.take_of_length_le hshort.le
    have hleft : s.chIn.drop (s.rawLen.toNat - 1) = [] := List.drop_of_length_le hshort.le
    rw [show exchangeFromBody s = fail _ _ _ _ from if_pos (by rwa [hall]), bodyStored, hall, hleft]
    exact runs_last_exchangeStep ht hq (.bodyShort rfl hshort rfl) rfl
  · have hlen : (bodyArrived s).length = s.rawLen.toNat - 1 := List.length_take_of_le hwhole
    have hbody : bodyOf (bodyStored s) = some (bodyArrived s) := readRange_writeRange_of_length hlen
    rw [show exchangeFromBody s = exchangeFromVerify _ _ from if_neg (by rw [hlen]; exact lt_irrefl _)]
    exact runs_exchangeStep ht (.bodyWhole rfl hwhole) (runs_verify (s := bodyStored s) ht hq k hl hbody)

theorem runs_rxLen (k : Nat) : Runs (k + 4) { s with phase := .rxLen } (exchangeFromLen s) := by
  rw [exchangeFromLen]
  split
  next hin => exact runs_last_exchangeStep ht hq (.lenTimeout rfl hin rfl) rfl
  next l input hin =>
    dsimp only
    split
    next hbad => exact runs_last_exchangeStep ht hq (.lenBad rfl hin hbad) rfl
    next hok =>
      exact runs_exchangeStep ht (.lenOk rfl hin (Nat.le_of_not_lt hok))
        (runs_rxBody (s := { s with chIn := input, rawLen := l }) ht hq k (Nat.le_of_not_lt hok))

theorem runs_rxStatus (k : Nat) : Runs (k + 5) { s with phase := .rxStatus } (exchangeFromStatus s) := by
  rw [exchangeFromStatus]
  split
  next hin => exact runs_last_exchangeStep ht hq (.statusTimeout rfl hin rfl) rfl
  next status input hin =>
    obtain rfl | rfl | rfl | rfl | hunknown := status_cases status
    · exact runs_exchangeStep ht (.statusOk rfl hin)
        (runs_rxLen (s := { s with chIn := input, rawStatus := 0#8 }) ht hq k)
    · exact runs_last_exchangeStep ht hq (.chipError (tag := .receiveError) rfl hin (by decide)) rfl
    · exact runs_last_exchangeStep ht hq (.chipError (tag := .paramError) rfl hin (by decide)) rfl
    · exact runs_last_exchangeStep ht hq (.chipError (tag := .executeError) rfl hin (by decide)) rfl
    · dsimp only
      rw [if_neg (by bv_omega), if_neg (by bv_omega), if_neg (by bv_omega), if_pos hunknown]
      exact runs_last_exchangeStep ht hq (.statusUnknown rfl hin hunknown) rfl

end

/-- Settles O41: the first step admits the frame, the second sends it, the other five are the run from `RX_STATUS`. -/
theorem sevenStepsAreThePseudocode : Obligations.SevenStepsAreThePseudocode := by
  intro s w f ht hp hq hd hmin hmax hf
  have hadmit : step s = .next (startExchange { s with hostq := [] }) := by
    rw [step_nil ht, blockTurn_idle_cons hp hq, acceptWord_ok hd]
    exact exec_of_hostEffect hp (.start hmin hmax)
  rw [exchange_eq_parts]
  exact Runs.succ hadmit (runs_exchangeStep ht (.send rfl hf)
    (runs_rxStatus (s := envelopeSent f { s with hostq := [] }) ht rfl 0))

end Sys2Proof.Safety
end

section
/-! SUPPORT. The receive side (spec/42_rx_decoder.md): the phases behind the envelope as equations of the block's turn
(R92 to R98), the start of an exchange (R91), the operations `RXB.RD` and `XFER.FLUSH` (R102, R103), and the stops outside
a meaning's phase (R100, R127). -/

namespace Sys2Proof.Safety

open Sys2Proof.Machine

/-! ## The phases -/

/-- Settles O34: the timeout, then the byte by its kind (`status_cases`). -/
theorem statusPhaseClassifiesTheByte : Obligations.StatusPhaseClassifiesTheByte := by
  refine ⟨fun s hp hin => blockTurn_of_exchangeStep (.statusTimeout hp hin rfl), fun e s b rest hp hin => ?_⟩
  obtain rfl | rfl | rfl | rfl | hb := status_cases b
  · exact blockTurn_of_exchangeStep (.statusOk hp hin)
  · exact blockTurn_of_exchangeStep (.chipError (tag := .receiveError) hp hin (by decide))
  · exact blockTurn_of_exchangeStep (.chipError (tag := .paramError) hp hin (by decide))
  · exact blockTurn_of_exchangeStep (.chipError (tag := .executeError) hp hin (by decide))
  · have hcode : ¬ b.toNat ≤ 3 := by omega
    rw [if_neg (by bv_omega), if_neg (by bv_omega), if_neg (by bv_omega), if_neg (by bv_omega), if_neg hcode,
      if_neg hcode]
    exact blockTurn_of_exchangeStep (.statusUnknown hp hin hb)

/-- Settles O35: the timeout, then the length byte below 3 or not. -/
theorem lengthPhaseChecksTheLengthByte : Obligations.LengthPhaseChecksTheLengthByte := by
  refine ⟨fun s hp hin => blockTurn_of_exchangeStep (.lenTimeout hp hin rfl), fun e s l rest hp hin => ?_⟩
  split
  next hbad => exact blockTurn_of_exchangeStep (.lenBad hp hin hbad)
  next hok => exact blockTurn_of_exchangeStep (.lenOk hp hin (Nat.le_of_not_lt hok))

/-- A byte of a buffer below the end of a range written from index 0 is the range's. -/
theorem read_writeRange_zero_lt {m : Memory} {bs : List Byte} {i : Nat} (h : i < bs.length) :
    Memory.read (Memory.writeRange m 0 bs) i = bs[i]? := by
  rw [Memory.read_writeRange, if_pos ⟨Nat.zero_le i, by omega⟩, Nat.sub_zero]

/-- A byte of a buffer from the end of a range written from index 0 on reads as before. -/
theorem read_writeRange_zero_ge {m : Memory} {bs : List Byte} {i : Nat} (h : bs.length ≤ i) :
    Memory.read (Memory.writeRange m 0 bs) i = Memory.read m i := by
  rw [Memory.read_writeRange, if_neg (by omega)]

/-- Settles O36: the buffer is the old one with the bytes that arrived written from index 0, short or whole. -/
theorem bodyPhaseReadsExactlyTheBody : Obligations.BodyPhaseReadsExactlyTheBody := by
  refine ⟨fun s hp hshort => ?_, fun e s hp hwhole => ?_⟩
  · exact ⟨_, blockTurn_of_exchangeStep (.bodyShort hp hshort rfl), fun i hi => read_writeRange_zero_lt hi,
      fun i hi => read_writeRange_zero_ge hi⟩
  · have hlen : (s.chIn.take (s.rawLen.toNat - 1)).length = s.rawLen.toNat - 1 := List.length_take_of_le hwhole
    exact ⟨_, blockTurn_of_exchangeStep (.bodyWhole hp hwhole), readRange_writeRange_of_length hlen,
      fun i hi => read_writeRange_zero_ge (hlen.trans_le hi)⟩

/-- The number of data bytes, without wrap where the length byte was accepted (R49, R98). -/
theorem sub_overhead_eq_ofNat {l : Byte} (hl : 3 ≤ l.toNat) : l - 3#8 = BitVec.ofNat 8 (l.toNat - 3) := by
  bv_omega

/-- Settles O38: the completion, with `DLEN` as a number. -/
theorem flushPhaseCompletes : Obligations.FlushPhaseCompletes := by
  intro e s hp hl
  rw [blockTurn_flush hp, ← sub_overhead_eq_ofNat hl]
  rfl

/-! ## The operations -/

/-- Settles O31: the start of R91. -/
theorem xferExecStartClearsTheLastResult : Obligations.XferExecStartClearsTheLastResult :=
  fun _ hp hmin hmax => ⟨none, exec_of_hostEffect hp (.start hmin hmax)⟩

/-- Settles O39: word, refusal of the argument, refusal of the index, and the byte returned. -/
theorem rxbRdReturnsDataOnly : Obligations.RxbRdReturnsDataOnly := by
  refine ⟨fun i => decodeReadsBackEncode (.rxbRd i),
    fun _ s harg => acceptWord_byteArg_nonzero (mk := .rxbRd) (by simp [byteArgOps]) harg s, fun i s hp hout => ?_,
    fun i b s hp hv hi hb => exec_of_hostAnswer hp (.rxByte (rxReadable_iff.2 ⟨hv, hi⟩) hb)⟩
  refine exec_of_hostAnswer hp (.rxIndex (Bool.eq_false_iff.2 fun hr => ?_))
  obtain ⟨hv, hi⟩ := rxReadable_iff.1 hr
  obtain hinvalid | hge := hout
  · simp [hinvalid] at hv
  · omega

/-- Settles O40: word, refusal, effect. -/
theorem xferFlushEmptiesBothQueues : Obligations.XferFlushEmptiesBothQueues :=
  ⟨decodeReadsBackEncode .xferFlush,
    fun _ s harg => acceptWord_noArg_nonzero (i := .xferFlush) (by simp [noArgOps]) harg s,
    fun _ hp => exec_of_hostEffect hp .xferFlush⟩

/-! ## The stops outside a meaning's phase -/

theorem exists_hc_of_format {c : Encoded} (h : c.format = .hc) : ∃ w, c = .hc w := by
  cases c with
  | hc w => exact ⟨w, rfl⟩
  | req | rsp => cases h

theorem exec_outside_tx {i : Instr} {s : State} (hi : (encode i).format = .req) (h : s.phase ≠ .tx) :
    exec i s = .fault (.outsidePhase .tx) := by
  cases i with
  | req => exact atPhase_other _ h
  | _ => cases hi

theorem exec_outside_rxStatus {i : Instr} {s : State} (hi : (encode i).format = .rsp) (h : s.phase ≠ .rxStatus) :
    exec i s = .fault (.outsidePhase .rxStatus) := by
  cases i with
  | stOk | stRecv | stParam | stExec | stUnknown04 | stUnknown08 | stUnknown10 | stUnknown20 | stUnknown40
  | stUnknown80 => exact atPhase_other _ h
  | _ => cases hi

/-- Settles O14: a meaning's format names its phase. -/
theorem meaningsStopOutsideTheirPhase : Obligations.MeaningsStopOutsideTheirPhase :=
  ⟨fun _ _ hi hp => exec_outside_idle (exists_hc_of_format hi) hp, fun _ _ => exec_outside_tx,
    fun _ _ => exec_outside_rxStatus⟩

end Sys2Proof.Safety
end

section
/-! SUPPORT. The system operations `NOP`, `REG.RD` and `SYS.RESET` (spec/43_system.md R110 to R112), the refusals (R113),
and the acceptance of a presented word as a step (R114). -/

namespace Sys2Proof

theorem toNat_lowByte (v : Crc) : (lowByte v).toNat = v.toNat % 256 := by
  rw [lowByte_eq_ofNat, BitVec.toNat_ofNat, Nat.mod_mod]

theorem toNat_highByte (v : Crc) : (highByte v).toNat = v.toNat / 256 := by
  rw [highByte_eq_ofNat, BitVec.toNat_ofNat, Nat.mod_eq_of_lt (by omega)]

end Sys2Proof

namespace Sys2Proof.Safety

open Sys2Proof.Machine

/-! ## The refusals -/

/-- In `IDLE` only the host operations answer a next state: the channel rows belong to other phases (R100). -/
theorem hostEffect_of_exec_idle {i : Instr} {s t : State} (hp : s.phase = .idle) (h : exec i s = .next t) :
    HostEffect s i t := by
  cases hf : (encode i).format with
  | hc => exact hostEffect_of_exec hf h
  | req => simp [exec_outside_tx hf (s := s) (by simp [hp])] at h
  | rsp => simp [exec_outside_rxStatus hf (s := s) (by simp [hp])] at h

theorem rdata_of_refused {i : Instr} {a : Ack} {d : List Byte} {s : State} (h : HostAnswer s i a d)
    (ha : a ≠ .done) : d = [] := by
  cases h with
  | nop | crcEmit | rxByte | register => exact absurd rfl ha
  | txFull | frameShort | frameLong | rxIndex | badReg => rfl

/-- Of the operations' effects only `HostAnswer` carries another acknowledge than `DONE`: those that write a register end
`DONE`, and the start of an exchange leaves the host without an answer (R91). -/
theorem hostAnswer_of_refused {i : Instr} {s t : State} {a : Answer} (he : HostEffect s i t)
    (ht : t.answer = some a) (ha : a.ack ≠ .done) :
    HostAnswer s i a.ack a.rdata ∧ t = answerHost a.ack a.rdata s := by
  cases he with
  | answered h =>
    obtain rfl := Option.some.inj ht
    exact ⟨h, rfl⟩
  | crcClr | crcUpd | crcVfy | txbClr | txbPush | xferFlush | sysReset =>
    obtain rfl := Option.some.inj ht
    exact absurd rfl ha
  | start => cases ht

/-- Settles O49: a refused operation is a `HostAnswer`, which returns bytes with `DONE` only. -/
theorem refusedOperationsChangeNothing : Obligations.RefusedOperationsChangeNothing := by
  intro i s t a hp h ht ha
  obtain ⟨hans, rfl⟩ := hostAnswer_of_refused (hostEffect_of_exec_idle hp h) ht ha
  have hd : a.rdata = [] := rdata_of_refused hans ha
  exact ⟨hd, by rw [hd]; rfl⟩

/-! ## The acceptance of a word -/

/-- Settles O7: the block's turn in `IDLE` takes the first presented word and performs what it decodes to. -/
theorem stepRunsTheHostWord : Obligations.StepRunsTheHostWord := by
  intro s w q i hn hp hq hd
  obtain ⟨e, ha⟩ := blockActs_of_blockNext hn
  rw [step_of_blockActs ha, blockTurn_idle_cons (s := turnTaken s) hp hq, acceptWord_ok hd]

/-! ## The register map -/

/-- The register map of R21 as a table: each number with the byte the host reads there. -/
def registerMap (s : State) : List (Byte × Byte) :=
  [(0x00#8, lowByte s.crc), (0x01#8, highByte s.crc), (0x02#8, flags s), (0x03#8, s.txlen), (0x04#8, s.dlen),
   (0x05#8, s.resTag.code.setWidth 8), (0x06#8, s.resCode), (0x07#8, s.cause.code.setWidth 8), (0x08#8, s.rawStatus),
   (0x09#8, s.rawLen), (0x0A#8, lowByte s.vcrc), (0x0B#8, highByte s.vcrc)]

theorem regRead_of_mem_registerMap {s : State} {r v : Byte} (h : (r, v) ∈ registerMap s) : regRead s r = some v := by
  have hrows : ∀ p ∈ registerMap s, regRead s p.1 = some p.2 := by
    simp only [registerMap, List.forall_mem_cons]
    exact ⟨rfl, rfl, rfl, rfl, rfl, rfl, rfl, rfl, rfl, rfl, rfl, rfl, by simp⟩
  exact hrows _ h

/-- `FLAGS` as a number: `MATCH` counts 1 and `RXVALID` counts 2 (R20). -/
theorem toNat_flags (s : State) :
    (flags s).toNat = (if s.matchFlag then 1 else 0) + (if s.rxvalid then 2 else 0) := by
  cases hm : s.matchFlag <;> cases hv : s.rxvalid <;> simp [flags, hm, hv]

/-- The code of an enumerated register keeps its number in the byte the host reads (R15, R16). -/
theorem toNat_codeByte (c : BitVec 3) : (c.setWidth 8).toNat = c.toNat :=
  BitVec.toNat_setWidth_of_le (by decide)

/-! ## The operations -/

/-- Settles O45: word, refusal, effect. -/
theorem nopChangesNothing : Obligations.NopChangesNothing :=
  ⟨decodeReadsBackEncode .nop,
    fun _ s harg => acceptWord_noArg_nonzero (i := .nop) (by simp [noArgOps]) harg s,
    fun _ hp => exec_of_hostAnswer hp .nop⟩

/-- Settles O46: word, refusal of the argument, refusal of a reserved number; a register's number determines the byte
that `registerMap` lists. -/
theorem regRdReturnsTheNumberedRegister : Obligations.RegRdReturnsTheNumberedRegister := by
  refine ⟨fun r => decodeReadsBackEncode (.regRd r),
    fun _ s harg => acceptWord_byteArg_nonzero (mk := .regRd) (by simp [byteArgOps]) harg s,
    fun r s hp hr => exec_of_hostAnswer hp (.badReg (regRead_none.2 hr)), fun r v s hp hv => ?_⟩
  have hnum : (r, v.toNat) ∈ (registerMap s).map (Prod.map id BitVec.toNat) := by
    simpa only [registerMap, List.map_cons, List.map_nil, Prod.map_apply, id, toNat_lowByte, toNat_highByte, toNat_flags,
      toNat_codeByte] using hv
  obtain ⟨⟨_, w⟩, hmem, heq⟩ := List.mem_map.1 hnum
  obtain ⟨rfl, hw⟩ := Prod.mk.inj heq
  obtain rfl := BitVec.eq_of_toNat_eq hw
  exact exec_of_hostAnswer hp (.register (regRead_of_mem_registerMap hmem))

/-- Settles O48: word, refusal, effect; the reset buffers are the empty ones (R25). -/
theorem sysResetGivesTheResetValues : Obligations.SysResetGivesTheResetValues :=
  ⟨decodeReadsBackEncode .sysReset,
    fun _ s harg => acceptWord_noArg_nonzero (i := .sysReset) (by simp [noArgOps]) harg s,
    fun _ hp => ⟨[], [], exec_of_hostEffect hp .sysReset⟩⟩

end Sys2Proof.Safety
end

section
/-! SUPPORT. No step faults (spec/43_system.md R127, spec/10_state.md R24), and the causes for which an exchange ends
(spec/60_exceptions.md R120, R121): in `IDLE` every host operation has its effect, and the row an exchange ends in is
read off the phase it ended in. -/

namespace Sys2Proof.Safety

open Sys2Proof.Machine

/-! ## In `IDLE` a step answers next -/

/-- The data that `RXB.RD` may read lies inside the body that was verified, so it has been written (R24 item 3, R102). -/
theorem Inv.exists_read_of_rxReadable {s : State} {i : Byte} (h : Inv s) (hr : rxReadable s i = true) :
    ∃ b, Memory.read s.rxbuf i.toNat = some b := by
  obtain ⟨hv, hi⟩ := rxReadable_iff.1 hr
  obtain ⟨-, hdlen, hlen, body, hbody, -, -⟩ := h.validData hv
  have hd : s.dlen.toNat = s.rawLen.toNat - 3 := by rw [hdlen]; exact BitVec.toNat_sub_of_le hlen
  obtain ⟨b, hb⟩ := (Memory.readRange_isSome s.rxbuf 0 (s.rawLen.toNat - 1)).1 ⟨body, hbody⟩ i.toNat (by omega)
  exact ⟨b, by rwa [Nat.zero_add] at hb⟩

/-- Under the invariants every host operation has its effect: of the twelve only `RXB.RD` could meet a byte that holds
no value. -/
theorem Inv.exists_hostEffect {s : State} {i : Instr} (h : Inv s) (hi : (encode i).format = .hc) :
    ∃ t, HostEffect s i t := by
  cases i with
  | nop => exact ⟨_, .answered .nop⟩
  | crcClr => exact ⟨_, .crcClr⟩
  | crcUpd b => exact ⟨_, .crcUpd b⟩
  | crcEmit => exact ⟨_, .answered .crcEmit⟩
  | crcVfy w => exact ⟨_, .crcVfy w⟩
  | txbClr => exact ⟨_, .txbClr⟩
  | txbPush b =>
    by_cases hl : s.txlen.toNat = 255
    · exact ⟨_, .answered (.txFull b hl)⟩
    · exact ⟨_, .txbPush b hl⟩
  | xferExec =>
    obtain hmin | hmin := Nat.lt_or_ge s.txlen.toNat 5
    · exact ⟨_, .answered (.frameShort hmin)⟩
    · obtain hmax | hmax := Nat.lt_or_ge 254 s.txlen.toNat
      · exact ⟨_, .answered (.frameLong hmax)⟩
      · exact ⟨_, .start hmin hmax⟩
  | rxbRd k =>
    cases hr : rxReadable s k with
    | false => exact ⟨_, .answered (.rxIndex hr)⟩
    | true =>
      obtain ⟨b, hb⟩ := h.exists_read_of_rxReadable hr
      exact ⟨_, .answered (.rxByte hr hb)⟩
  | xferFlush => exact ⟨_, .xferFlush⟩
  | regRd r =>
    cases hr : regRead s r with
    | none => exact ⟨_, .answered (.badReg hr)⟩
    | some v => exact ⟨_, .answered (.register hr)⟩
  | sysReset => exact ⟨_, .sysReset⟩
  | _ => cases hi

/-- The block's turn in `IDLE`: no word, a word that is no instruction, or an operation with its effect. -/
theorem Inv.exists_stepEffect_of_blockNext {s : State} (h : Inv s) (hn : blockNext s) (hp : s.phase = .idle) :
    ∃ t, StepEffect s t := by
  cases hq : s.hostq with
  | nil => exact ⟨_, .idle hn hp hq⟩
  | cons w q =>
    cases hd : decode (.hc w) with
    | error err => exact ⟨_, .refused hn hp hq hd⟩
    | ok i =>
      have haccepted : Inv { s with turns := s.turns.tail, hostq := q } := h.unseen rfl (.inl hp)
      obtain ⟨t, he⟩ := haccepted.exists_hostEffect (decode_hc_hostOp hd).2
      exact ⟨t, .performed hn hp hq hd he⟩

/-- Whoever is due, an idle block has a next step; the timer finds no read waiting. -/
theorem Inv.exists_stepEffect_of_idle {s : State} (h : Inv s) (hp : s.phase = .idle) : ∃ t, StepEffect s t := by
  cases ht : s.turns with
  | nil => exact h.exists_stepEffect_of_blockNext (.inl ht) hp
  | cons a ts =>
    cases a with
    | block => exact h.exists_stepEffect_of_blockNext (.inr ⟨ts, ht⟩) hp
    | timer => exact ⟨_, .timerSilent ht (readWaiting_eq_false_iff.2 (.inl hp))⟩
    | host w => exact ⟨_, .present ht⟩
    | peerSend b => exact ⟨_, .peerSend ht⟩
    | peerTake n => exact ⟨_, .peerTake ht⟩
    | rst => exact ⟨_, .hardReset ht⟩

/-- Settles O52: `IDLE` above, a running exchange by `Inv.exists_stepEffect_of_busy`. -/
theorem noStepFaults : Obligations.NoStepFaults := by
  intro s h
  have hs : ∃ t, StepEffect s t := by
    by_cases hp : s.phase = .idle
    · exact h.exists_stepEffect_of_idle hp
    · exact h.exists_stepEffect_of_busy hp
  exact hs.imp fun _ => step_of_stepEffect

/-! ## The end of an exchange -/

/-- Only the block's own step, or a reset, brings a running exchange to `IDLE`. -/
theorem exchangeStep_of_end {s t : State} (h : step s = .next t) (hb : s.phase ≠ .idle) (hr : ¬ resetNext s)
    (ht : t.phase = .idle) : ∃ e, ExchangeStep e (turnTaken s) t := by
  cases step_next_iff_stepEffect.1 h with
  | exchange ha hx => exact ⟨_, hx⟩
  | idle hn hp | refused hn hp | performed hn hp => exact absurd hp hb
  | timerSilent | present | peerSend | peerTake => exact absurd ht hb
  | hardReset hturn => exact absurd ⟨_, hturn⟩ hr

/-- Settles O44: the phases that go on do not end in `IDLE`, `FLUSH` completes, and each failure is the one row of its
phase, condition and cause. The data of the last response was withdrawn when the exchange started (`Inv.busyClear`). -/
theorem exchangesEndInOneRowOfTheCauses : Obligations.ExchangesEndInOneRowOfTheCauses := by
  intro s t h hb hr hs ht
  obtain ⟨e, hx⟩ := exchangeStep_of_end hs hb hr ht
  have hu := h.turnTaken
  rw [← turnTaken_phase s, ← turnTaken_chIn s, ← turnTaken_rawLen s]
  generalize turnTaken s = u at hx hu ⊢
  have hbusy := hx.busy
  obtain ⟨-, -, hvalid, hcause, -⟩ := hu.busyClear hbusy
  have hdlen := hu.noDataLength hvalid
  cases hx with
  | wait => exact absurd ht hbusy
  | send | statusOk | lenOk | bodyWhole | crcMatches => cases ht
  | complete hp => exact .inl ⟨hp, rfl, rfl, hcause, rfl⟩
  | statusTimeout hp hin => exact .inr ⟨hvalid, hdlen, by simp [hp, hin]⟩
  | chipError hp hin hbyte =>
    simp only [chipErrors, List.mem_cons, Prod.mk.injEq, List.not_mem_nil, or_false] at hbyte
    obtain ⟨rfl, rfl⟩ | ⟨rfl, rfl⟩ | ⟨rfl, rfl⟩ := hbyte <;> exact .inr ⟨hvalid, hdlen, by simp [hp, hin]⟩
  | statusUnknown hp hin hbyte => exact .inr ⟨hvalid, hdlen, by simp [hp, hin, hbyte]⟩
  | lenTimeout hp hin => exact .inr ⟨hvalid, hdlen, by simp [hp, hin]⟩
  | lenBad hp hin hl => exact .inr ⟨hvalid, hdlen, by simp [hp, hin, hl]⟩
  | bodyShort hp hl => exact .inr ⟨hvalid, hdlen, by simp [hp, hl]⟩
  | crcMismatch hp => exact .inr ⟨hvalid, hdlen, by simp [hp]⟩

end Sys2Proof.Safety
end

section
/-! SUPPORT. The hardware reset (spec/70_reset_and_hazards.md R140, R141): the step with `rst` asserted is one and the same in
every phase, and the pins that are functions of `PHASE` follow from the reset value of `PHASE`. -/

namespace Sys2Proof.Safety

open Sys2Proof.Machine

theorem hReady_eq_true_iff {s : State} : hReady s = true ↔ s.phase = .idle := decide_eq_true_iff

theorem busy_eq_false_iff {s : State} : busy s = false ↔ s.phase = .idle := by
  rw [busy, decide_eq_false_iff_not, not_not]

/-- The step does not look at the phase: `rst` acts whatever the block is doing (R140). -/
theorem step_of_resetNext {s : State} (h : resetNext s) : step s = .next (hardReset (turnTaken s)) := by
  obtain ⟨_, hturn⟩ := h
  exact step_of_stepEffect (.hardReset hturn)

/-- Settles O13: the step is `hardReset`, of which each conjunct names one field; both pins are read off `PHASE`. -/
theorem hardwareResetInEveryPhase : Obligations.HardwareResetInEveryPhase := by
  intro s hrst
  have hidle : (hardReset (turnTaken s)).phase = .idle := hardReset_phase _
  have hready : hReady (hardReset (turnTaken s)) = true := hReady_eq_true_iff.2 hidle
  have hnotBusy : busy (hardReset (turnTaken s)) = false := busy_eq_false_iff.2 hidle
  refine ⟨hardReset (turnTaken s), step_of_resetNext hrst, ?_⟩
  simp [hready, hnotBusy]

end Sys2Proof.Safety
end
